-- ==== Sys2Proof/Word.lean ====
section
/-! DEFINITION. The word types of the machine (spec/00_scope.md R7, R9 to R11). Every value is unsigned. -/

namespace Sys2Proof

/-- A general register, a memory byte, a framebuffer byte: 8 bits (R7). -/
abbrev Byte := BitVec 8

/-- The instruction word, `I`, `PC`, a stack entry: 16 bits (R7). -/
abbrev Word := BitVec 16

/-- A register index `X` or `Y`, or the row count `N`: a 4-bit field (R15). -/
abbrev Nibble := BitVec 4

/-- The address field `NNN`: 12 bits (R15). -/
abbrev Addr := BitVec 12

end Sys2Proof
end

