-- ==== Sys2Proof/Syntax.lean ====
section
/-! DEFINITION. The instructions: one constructor per row of spec/opcode_table.json, in the table's order
(spec/30_encoding.md R86). Operand fields have the widths of R69, so a field can hold nothing wider. -/

namespace Sys2Proof

/-- The 33 instructions (R86). A word that is none of them is Unknown (R80) and has no constructor. -/
inductive Instr where
  /-- clear-display: `CLS`, 00E0 (R90). -/
  | cls
  /-- return: `RET`, 00EE (R97). -/
  | ret
  /-- jump NNN: `JP addr`, 1NNN (R98). -/
  | jp (nnn : Addr)
  /-- call NNN: `CALL addr`, 2NNN (R99). -/
  | call (nnn : Addr)
  /-- skip-eq-imm: `SE Vx, byte`, 3XNN (R100). -/
  | seImm (x : Nibble) (nn : Byte)
  /-- skip-ne-imm: `SNE Vx, byte`, 4XNN (R101). -/
  | sneImm (x : Nibble) (nn : Byte)
  /-- skip-eq-reg: `SE Vx, Vy`, 5XY0 (R102). -/
  | seReg (x : Nibble) (y : Nibble)
  /-- set-imm: `LD Vx, byte`, 6XNN (R106). -/
  | ldImm (x : Nibble) (nn : Byte)
  /-- add-imm: `ADD Vx, byte`, 7XNN (R107). -/
  | addImm (x : Nibble) (nn : Byte)
  /-- set-reg: `LD Vx, Vy`, 8XY0 (R108). -/
  | ldReg (x : Nibble) (y : Nibble)
  /-- or: `OR Vx, Vy`, 8XY1 (R109). -/
  | orReg (x : Nibble) (y : Nibble)
  /-- and: `AND Vx, Vy`, 8XY2 (R110). -/
  | andReg (x : Nibble) (y : Nibble)
  /-- xor: `XOR Vx, Vy`, 8XY3 (R111). -/
  | xorReg (x : Nibble) (y : Nibble)
  /-- add-reg: `ADD Vx, Vy`, 8XY4 (R112). -/
  | addReg (x : Nibble) (y : Nibble)
  /-- sub-reg: `SUB Vx, Vy`, 8XY5 (R113). -/
  | sub (x : Nibble) (y : Nibble)
  /-- shift-right: `SHR Vx`, 8XY6 (R114). -/
  | shr (x : Nibble) (y : Nibble)
  /-- subn-reg: `SUBN Vx, Vy`, 8XY7 (R115). -/
  | subn (x : Nibble) (y : Nibble)
  /-- shift-left: `SHL Vx`, 8XYE (R116). -/
  | shl (x : Nibble) (y : Nibble)
  /-- skip-ne-reg: `SNE Vx, Vy`, 9XY0 (R103). -/
  | sneReg (x : Nibble) (y : Nibble)
  /-- set-index NNN: `LD I, addr`, ANNN (R120). -/
  | ldI (nnn : Addr)
  /-- jump-offset NNN: `JP V0, addr`, BNNN (R104). -/
  | jpV0 (nnn : Addr)
  /-- rand-and: `RND Vx, byte`, CXNN (R117). -/
  | rnd (x : Nibble) (nn : Byte)
  /-- draw X Y N: `DRW Vx, Vy, nibble`, DXYN (R91). -/
  | drw (x : Nibble) (y : Nibble) (n : Nibble)
  /-- skip-key-pressed: `SKP Vx`, EX9E (R127). -/
  | skp (x : Nibble)
  /-- skip-key-not-pressed: `SKNP Vx`, EXA1 (R128). -/
  | sknp (x : Nibble)
  /-- get-delay: `LD Vx, DT`, FX07 (R129). -/
  | ldVDt (x : Nibble)
  /-- wait-key: `LD Vx, K`, FX0A (R130). -/
  | ldVK (x : Nibble)
  /-- set-delay: `LD DT, Vx`, FX15 (R131). -/
  | ldDtV (x : Nibble)
  /-- add-index: `ADD I, Vx`, FX1E (R121). -/
  | addI (x : Nibble)
  /-- font-char: `LD F, Vx`, FX29 (R122). -/
  | ldF (x : Nibble)
  /-- bcd: `LD B, Vx`, FX33 (R123). -/
  | ldB (x : Nibble)
  /-- reg-dump: `LD [I], Vx`, FX55 (R124). -/
  | ldMemV (x : Nibble)
  /-- reg-load: `LD Vx, [I]`, FX65 (R125). -/
  | ldVMem (x : Nibble)
  deriving DecidableEq, Repr

end Sys2Proof
end

