-- ==== Sys2Proof/WellFormed.lean ====
section
/-! DEFINITION. Which operand values an instruction's fields can hold (spec/30_encoding.md R69, R89). -/

namespace Sys2Proof

/-- The operand fields of R68. -/
inductive Slot where
  /-- `X` or `Y`, 4 bits. -/
  | reg
  /-- `NNN`, 12 bits. -/
  | addr
  /-- `NN`, 8 bits. -/
  | byte
  /-- `N`, 4 bits. -/
  | nibble
  deriving DecidableEq, Repr

/-- The width of a field (R68, R69). -/
def Slot.width : Slot → Nat
  | .reg => 4
  | .addr => 12
  | .byte => 8
  | .nibble => 4

/-- R89: an operand fits its field; a wider value is refused. -/
def Slot.fits (k : Slot) (n : Nat) : Bool := decide (n < 2 ^ k.width)

/-- The operands of an instruction with the field each stands in (R68, R86). -/
def Instr.operands : Instr → List (Slot × Nat)
  | .cls | .ret => []
  | .jp nnn | .call nnn | .ldI nnn | .jpV0 nnn => [(.addr, nnn.toNat)]
  | .seImm x nn | .sneImm x nn | .ldImm x nn | .addImm x nn | .rnd x nn => [(.reg, x.toNat), (.byte, nn.toNat)]
  | .seReg x y | .sneReg x y | .ldReg x y | .orReg x y | .andReg x y | .xorReg x y | .addReg x y | .sub x y
  | .shr x y | .subn x y | .shl x y => [(.reg, x.toNat), (.reg, y.toNat)]
  | .drw x y n => [(.reg, x.toNat), (.reg, y.toNat), (.nibble, n.toNat)]
  | .skp x | .sknp x | .ldVDt x | .ldVK x | .ldDtV x | .addI x | .ldF x | .ldB x | .ldMemV x | .ldVMem x =>
    [(.reg, x.toNat)]

/-- Every operand fits its field. The operand types make this true of every `Instr`
(`Sys2Proof.Instr.wellFormed_all`); the check itself is what the assembler of Machine/Assembler.lean applies to
operands written as numbers. -/
def Instr.wellFormed (i : Instr) : Bool := i.operands.all fun o => o.1.fits o.2

end Sys2Proof
end

