-- ==== Sys2Proof/Decode.lean ====
section
/-! DEFINITION. Decoding and encoding (spec/30_encoding.md R67 to R73, R80, R83, R86). The opcode values are the spec's
own map (R70 and the opcode table; assumption log, entry 5: UNVERIFIED, unsafe); the nibble decoder and its don't-care bits are the
spec's reading (R72, R83; entry 6: UNVERIFIED, unsafe). -/

namespace Sys2Proof

/-- `w[15:12]`, nibble 1 (R10): the family. -/
def fieldFam (w : Word) : Nibble := w.extractLsb' 12 4

/-- `X = w[11:8]` (R15). -/
def fieldX (w : Word) : Nibble := w.extractLsb' 8 4

/-- `Y = w[7:4]` (R15). -/
def fieldY (w : Word) : Nibble := w.extractLsb' 4 4

/-- `N = w[3:0]` (R15). -/
def fieldN (w : Word) : Nibble := w.extractLsb' 0 4

/-- `NN = w[7:0]` (R15). -/
def fieldNN (w : Word) : Byte := w.extractLsb' 0 8

/-- `NNN = w[11:0]` (R15). -/
def fieldNNN (w : Word) : Addr := w.extractLsb' 0 12

/-- `Decode(w)` of R72; `none` is `Unknown`. -/
def decode (w : Word) : Option Instr :=
  match fieldFam w with
  | 0x0#4 =>
    match fieldN w with
    | 0x0#4 => some .cls
    | 0xE#4 => some .ret
    | _ => none
  | 0x1#4 => some (.jp (fieldNNN w))
  | 0x2#4 => some (.call (fieldNNN w))
  | 0x3#4 => some (.seImm (fieldX w) (fieldNN w))
  | 0x4#4 => some (.sneImm (fieldX w) (fieldNN w))
  | 0x5#4 => some (.seReg (fieldX w) (fieldY w))
  | 0x6#4 => some (.ldImm (fieldX w) (fieldNN w))
  | 0x7#4 => some (.addImm (fieldX w) (fieldNN w))
  | 0x8#4 =>
    match fieldN w with
    | 0x0#4 => some (.ldReg (fieldX w) (fieldY w))
    | 0x1#4 => some (.orReg (fieldX w) (fieldY w))
    | 0x2#4 => some (.andReg (fieldX w) (fieldY w))
    | 0x3#4 => some (.xorReg (fieldX w) (fieldY w))
    | 0x4#4 => some (.addReg (fieldX w) (fieldY w))
    | 0x5#4 => some (.sub (fieldX w) (fieldY w))
    | 0x6#4 => some (.shr (fieldX w) (fieldY w))
    | 0x7#4 => some (.subn (fieldX w) (fieldY w))
    | 0xE#4 => some (.shl (fieldX w) (fieldY w))
    | _ => none
  | 0x9#4 => some (.sneReg (fieldX w) (fieldY w))
  | 0xA#4 => some (.ldI (fieldNNN w))
  | 0xB#4 => some (.jpV0 (fieldNNN w))
  | 0xC#4 => some (.rnd (fieldX w) (fieldNN w))
  | 0xD#4 => some (.drw (fieldX w) (fieldY w) (fieldN w))
  | 0xE#4 =>
    match fieldN w with
    | 0xE#4 => some (.skp (fieldX w))
    | 0x1#4 => some (.sknp (fieldX w))
    | _ => none
  | 0xF#4 =>
    match fieldN w with
    | 0x7#4 => some (.ldVDt (fieldX w))
    | 0xA#4 => some (.ldVK (fieldX w))
    | 0xE#4 => some (.addI (fieldX w))
    | 0x9#4 => some (.ldF (fieldX w))
    | 0x3#4 => some (.ldB (fieldX w))
    | 0x5#4 =>
      match fieldY w with
      | 0x1#4 => some (.ldDtV (fieldX w))
      | 0x5#4 => some (.ldMemV (fieldX w))
      | 0x6#4 => some (.ldVMem (fieldX w))
      | _ => none
    | _ => none
  | _ => none

/-- R50: the 16-bit word of two bytes, the byte at the lower address on top. -/
def wordOfBytes (hi lo : Byte) : Word := hi ++ lo

/-- R50: the two bytes of a word as memory holds them, lower address first. -/
def bytesOfWord (w : Word) : List Byte := [w.extractLsb' 8 8, w.extractLsb' 0 8]

/-- Why a byte string is not an instruction. -/
inductive DecodeReject where
  /-- Fewer than the 2 bytes every instruction has (R67). -/
  | truncated
  /-- The word is Unknown (R80); the cycle answers it with a diagnostic, not with a stop (R79). -/
  | unknownOpcode (w : Word)
  deriving DecidableEq, Repr

/-- Decode the instruction at the front of a byte string and return the bytes after it; total, consuming exactly 2
bytes (R67, R84). -/
def decodeBytes : List Byte → Except DecodeReject (Instr × List Byte)
  | hi :: lo :: rest =>
    match decode (wordOfBytes hi lo) with
    | some i => .ok (i, rest)
    | none => .error (.unknownOpcode (wordOfBytes hi lo))
  | _ => .error .truncated

/-- The canonical word of an instruction (R86), with its fields in the places of R68. -/
def encode : Instr → Word
  | .cls => 0x00E0#16
  | .ret => 0x00EE#16
  | .jp nnn => 0x1#4 ++ nnn
  | .call nnn => 0x2#4 ++ nnn
  | .seImm x nn => 0x3#4 ++ x ++ nn
  | .sneImm x nn => 0x4#4 ++ x ++ nn
  | .seReg x y => 0x5#4 ++ x ++ y ++ 0x0#4
  | .ldImm x nn => 0x6#4 ++ x ++ nn
  | .addImm x nn => 0x7#4 ++ x ++ nn
  | .ldReg x y => 0x8#4 ++ x ++ y ++ 0x0#4
  | .orReg x y => 0x8#4 ++ x ++ y ++ 0x1#4
  | .andReg x y => 0x8#4 ++ x ++ y ++ 0x2#4
  | .xorReg x y => 0x8#4 ++ x ++ y ++ 0x3#4
  | .addReg x y => 0x8#4 ++ x ++ y ++ 0x4#4
  | .sub x y => 0x8#4 ++ x ++ y ++ 0x5#4
  | .shr x y => 0x8#4 ++ x ++ y ++ 0x6#4
  | .subn x y => 0x8#4 ++ x ++ y ++ 0x7#4
  | .shl x y => 0x8#4 ++ x ++ y ++ 0xE#4
  | .sneReg x y => 0x9#4 ++ x ++ y ++ 0x0#4
  | .ldI nnn => 0xA#4 ++ nnn
  | .jpV0 nnn => 0xB#4 ++ nnn
  | .rnd x nn => 0xC#4 ++ x ++ nn
  | .drw x y n => 0xD#4 ++ x ++ y ++ n
  | .skp x => 0xE#4 ++ x ++ 0x9E#8
  | .sknp x => 0xE#4 ++ x ++ 0xA1#8
  | .ldVDt x => 0xF#4 ++ x ++ 0x07#8
  | .ldVK x => 0xF#4 ++ x ++ 0x0A#8
  | .ldDtV x => 0xF#4 ++ x ++ 0x15#8
  | .addI x => 0xF#4 ++ x ++ 0x1E#8
  | .ldF x => 0xF#4 ++ x ++ 0x29#8
  | .ldB x => 0xF#4 ++ x ++ 0x33#8
  | .ldMemV x => 0xF#4 ++ x ++ 0x55#8
  | .ldVMem x => 0xF#4 ++ x ++ 0x65#8

/-- An instruction's two bytes in memory order (R67). -/
def encodeBytes (i : Instr) : List Byte := bytesOfWord (encode i)

/-- `mask` of the instruction's row in spec/opcode_table.json: the bits the decoder inspects (R72, R83). -/
def rowMask : Instr → Word
  | .cls | .ret | .ldReg .. | .orReg .. | .andReg .. | .xorReg .. | .addReg .. | .sub .. | .shr .. | .subn ..
  | .shl .. | .skp .. | .sknp .. | .ldVDt .. | .ldVK .. | .addI .. | .ldF .. | .ldB .. => 0xF00F#16
  | .ldDtV .. | .ldMemV .. | .ldVMem .. => 0xF0FF#16
  | .jp .. | .call .. | .seImm .. | .sneImm .. | .seReg .. | .ldImm .. | .addImm .. | .sneReg .. | .ldI ..
  | .jpV0 .. | .rnd .. | .drw .. => 0xF000#16

/-- `match` of the instruction's row in spec/opcode_table.json. -/
def rowMatch : Instr → Word
  | .cls => 0x0000#16
  | .ret => 0x000E#16
  | .jp .. => 0x1000#16
  | .call .. => 0x2000#16
  | .seImm .. => 0x3000#16
  | .sneImm .. => 0x4000#16
  | .seReg .. => 0x5000#16
  | .ldImm .. => 0x6000#16
  | .addImm .. => 0x7000#16
  | .ldReg .. => 0x8000#16
  | .orReg .. => 0x8001#16
  | .andReg .. => 0x8002#16
  | .xorReg .. => 0x8003#16
  | .addReg .. => 0x8004#16
  | .sub .. => 0x8005#16
  | .shr .. => 0x8006#16
  | .subn .. => 0x8007#16
  | .shl .. => 0x800E#16
  | .sneReg .. => 0x9000#16
  | .ldI .. => 0xA000#16
  | .jpV0 .. => 0xB000#16
  | .rnd .. => 0xC000#16
  | .drw .. => 0xD000#16
  | .skp .. => 0xE00E#16
  | .sknp .. => 0xE001#16
  | .ldVDt .. => 0xF007#16
  | .ldVK .. => 0xF00A#16
  | .ldDtV .. => 0xF015#16
  | .addI .. => 0xF00E#16
  | .ldF .. => 0xF009#16
  | .ldB .. => 0xF003#16
  | .ldMemV .. => 0xF055#16
  | .ldVMem .. => 0xF065#16

/-- The word that spec/opcode_table.json's numbering gives for `nbits` bits of value `w`: every instruction is one
16-bit word (R67), so bits 15 to 0 of `w`, those from `nbits` on taken as 0. Assumption log, entry 12. -/
def tableWord (nbits w : Nat) : Word := BitVec.ofNat 16 (w % 2 ^ nbits)

/-- The instruction the decoder reads from the table's numbering of a word: laid out as memory holds it (R50), then
decoded. -/
def decodeTableWord (nbits w : Nat) : Option Instr :=
  match decodeBytes (bytesOfWord (tableWord nbits w)) with
  | .ok (i, _) => some i
  | .error _ => none

end Sys2Proof
end

