-- ==== Sys2Proof/Config.lean ====
section
/-! DEFINITION. What an implementation fixes, and the free values (spec/00_scope.md R7, R8). -/

namespace Sys2Proof

/-- Memory size in bytes (R7, R49). -/
def Config.memSize : Nat := 4096

/-- Program base and reset PC (R7). -/
def Config.progBase : Nat := 0x200

/-- The longest program image, 4096 - 0x200 (R7, R156). -/
def Config.maxImage : Nat := 3584

/-- FREE VALUE. `FONT` (R8, D16): font byte j, for j below 80. It has no body, so a claim holds for every font; the
spec's default table is `defaultFont`, a premise for a claim that needs it. Assumption log, entry 4 (DESIGN CHOICE, safe). -/
opaque Config.font : Nat → Byte

/-- FREE VALUE. `MEM_INIT` (R8, R59): the content at power-on of the byte at an address outside the font region.
It has no body, so nothing can be proved of it. Assumption log, entry 3 (DESIGN CHOICE, safe). -/
opaque Config.memInit : Nat → Byte

/-- FREE VALUE. `RAND` (R8, R48): the n-th byte the host supplies on the `rand` port. It has no body.
Assumption log, entry 2 (DESIGN CHOICE). -/
opaque Config.rand : Nat → Byte

/-- FREE VALUE. The `pc` field of a `ProgramTooLarge` event (R133, R134), by the number of events recorded before it: a load
is no cycle, so the field has no instruction's address to hold (U17: a model may record any value there). It has no body.
Assumption log, entry 8 (DESIGN CHOICE, safe). -/
opaque Config.loadEventPc : Nat → Word

end Sys2Proof
end

