-- ==== Sys2Proof/Machine/State.lean ====
section
/-! DEFINITION. The state of the machine as plain data (spec/10_state.md R19), its fault reasons, its diagnostic events and
its state after reset (R39). -/

namespace Sys2Proof.Machine

/-- The fault reasons of spec/60_exceptions.md R135. A faulting cycle LATCHES one of them in `State.flt` and answers a next
state (R136), so that the halted machine of R140 is part of the model; no step answers `Host.Outcome.fault`
(assumption log, entry 1: DEDUCED). -/
inductive Fault where
  /-- Raised by fetch when PC is odd (R75); info is PC. Safe: the halt is the spec's own (R136, R140). -/
  | fetchMisaligned
  /-- Raised by fetch when PC is even and above 0xFFE (R75); info is PC. Safe: the halt is the spec's own. -/
  | fetchOutOfRange
  /-- Raised by DRW, LD B, LD [I] and LD Vx,[I] when an address `I + k` exceeds 0xFFF (R137); info is the smallest such
  address. Safe: the halt is the spec's own. -/
  | addressOutOfRange
  /-- Raised by SKP and SKNP when `V[X]` exceeds 15 (R139); info is `V[X]`. Safe: the halt is the spec's own. -/
  | keyIndexOutOfRange
  deriving DecidableEq, Repr

/-- Why a step has no meaning. No instruction of this model is refused. -/
inductive Refusal where
  /-- Raised by an arm of `exec` for an instruction not modelled yet; no arm raises it. Safe: the machine stops. -/
  | notModelled (mnemonic : String)
  deriving DecidableEq, Repr

/-- A diagnostic event `(kind, opcode, pc)` (R133), one constructor per kind of R134. -/
inductive Diag where
  /-- The word decodes to Unknown (R79). -/
  | unknownOpcode (opcode pc : Word)
  /-- CALL with a full stack (R99). -/
  | stackOverflow (opcode pc : Word)
  /-- RET with an empty stack (R97). -/
  | stackUnderflow (opcode pc : Word)
  /-- A program image longer than 3584 bytes (R156); raised by `load`, outside any cycle. Its opcode is OPC, which goes into
  every event (R34, R133); its pc is a free value (assumption log, entry 8: DESIGN CHOICE, safe). -/
  | programTooLarge (opcode pc : Word)
  deriving DecidableEq, Repr

/-- The content of the fault latch: the pair `(reason, info)` of R35. `info` is an unbounded natural, as the address sums
of R52 are. -/
structure Latch where
  reason : Fault
  info : Nat
  deriving DecidableEq, Repr

/-- The whole state (R19), the `load_error` output (R41), and the model's own two fields `diags` and `randDraws`. -/
structure State where
  /-- `M[0..4095]`: the listed bytes, in the canonical form of `Memory.wf`. -/
  mem : List Host.Cell
  /-- `V[0..15]`; `V[15]` is VF (R20, R21). -/
  v : Vector Byte 16
  /-- `I` (R23). -/
  i : Word
  /-- `PC` (R25). -/
  pc : Word
  /-- `S[0..15]` (R28). -/
  stack : Vector Word 16
  /-- `SP`, 0 to 16 (R29). -/
  sp : Fin 17
  /-- `DT` (R30). -/
  dt : Byte
  /-- `FB[0..2047]` (R31). -/
  fb : Vector Byte 2048
  /-- `KEY[0..15]`, key k at bit k (R32, R36). -/
  key : BitVec 16
  /-- `DF` (R33). -/
  df : Bool
  /-- `OPC` (R34). -/
  opc : Word
  /-- `FLT` (R35). -/
  flt : Option Latch
  /-- The `load_error` output: the last load was too large (R41, R43). -/
  loadError : Bool
  /-- Every diagnostic event so far, oldest first, never cleared (R151 (b); assumption log, entry 7). -/
  diags : List Diag
  /-- How many bytes have been drawn from the `rand` port (assumption log, entry 2). The model's own field. -/
  randDraws : Nat
  deriving DecidableEq, Repr

/-- The state after power-on and the first reset (R39, R153, R157): no memory byte is listed, so that the font region
reads as `FONT` and every other byte as `MEM_INIT`, both free values. `loadError`, `diags` and `randDraws` have no reset value in the spec
(assumption log, entries 9, 7 and 2: DESIGN CHOICE). -/
def State.reset : State where
  mem := []
  v := Vector.replicate 16 0x00#8
  i := 0x0000#16
  pc := 0x0200#16
  stack := Vector.replicate 16 0x0000#16
  sp := 0
  dt := 0x00#8
  fb := Vector.replicate 2048 0x00#8
  key := 0x0000#16
  df := false
  opc := 0x0000#16
  flt := none
  loadError := false
  diags := []
  randDraws := 0

end Sys2Proof.Machine
end

