-- ==== Sys2Proof/Machine/Memory.lean ====
section
/-! DEFINITION. The memory `M` as a list of (address, byte) pairs in one canonical form (spec/20_memory.md R49 to R62). -/

namespace Sys2Proof.Machine

/-- Base of the font table (R7). -/
def fontBase : Nat := 0x50

/-- Size of the font table: 16 glyphs of 5 bytes (R7). -/
def fontSize : Nat := 80

/-- The default value of the parameter `FONT`: the table of R56, glyph 0 first. The bytes are general knowledge there, not the
source's. The machine does not rest on them: it reads `Config.font` (assumption log, entry 4). -/
def defaultFont : List Byte :=
  [0xF0#8, 0x90#8, 0x90#8, 0x90#8, 0xF0#8] ++
  [0x20#8, 0x60#8, 0x20#8, 0x20#8, 0x70#8] ++
  [0xF0#8, 0x10#8, 0xF0#8, 0x80#8, 0xF0#8] ++
  [0xF0#8, 0x10#8, 0xF0#8, 0x10#8, 0xF0#8] ++
  [0x90#8, 0x90#8, 0xF0#8, 0x10#8, 0x10#8] ++
  [0xF0#8, 0x80#8, 0xF0#8, 0x10#8, 0xF0#8] ++
  [0xF0#8, 0x80#8, 0xF0#8, 0x90#8, 0xF0#8] ++
  [0xF0#8, 0x10#8, 0x20#8, 0x40#8, 0x40#8] ++
  [0xF0#8, 0x90#8, 0xF0#8, 0x90#8, 0xF0#8] ++
  [0xF0#8, 0x90#8, 0xF0#8, 0x10#8, 0xF0#8] ++
  [0xF0#8, 0x90#8, 0xF0#8, 0x90#8, 0x90#8] ++
  [0xE0#8, 0x90#8, 0xE0#8, 0x90#8, 0xE0#8] ++
  [0xF0#8, 0x80#8, 0x80#8, 0x80#8, 0xF0#8] ++
  [0xE0#8, 0x90#8, 0x90#8, 0x90#8, 0xE0#8] ++
  [0xF0#8, 0x80#8, 0xF0#8, 0x80#8, 0xF0#8] ++
  [0xF0#8, 0x80#8, 0xF0#8, 0x80#8, 0x80#8]

/-- The address lies in the font region `0x50..0x9F` (R55). -/
def inFont (a : Nat) : Bool := decide (fontBase ≤ a) && decide (a < fontBase + fontSize)

/-- What an address that the list does not hold reads as: `FONT` in the font region, which every reset seeds (R154), and
`MEM_INIT` elsewhere (R59). Both are free values, so no written byte is known to equal one and every written byte is listed
(assumption log, entry 3). -/
def Memory.unlisted (a : Nat) : Byte := if inFont a then Config.font (a - fontBase) else Config.memInit a

/-- The byte listed at an address. -/
def Memory.listed : List Host.Cell → Nat → Option Byte
  | [], _ => none
  | c :: m, a => if c.1 = a then some c.2 else Memory.listed m a

/-- `M[a]` (R49, R62): the listed byte, else what an unlisted address reads as. -/
def Memory.read (m : List Host.Cell) (a : Nat) : Byte := (Memory.listed m a).getD (Memory.unlisted a)

/-- `M[a] <- b`, in place in the sorted list. There is no byte above 0xFFF to write (R49); every instruction checks its
addresses first (R54), so no instruction asks for one. -/
def Memory.write (m : List Host.Cell) (a : Nat) (b : Byte) : List Host.Cell :=
  if a < Config.memSize then m.filter (fun c => c.1 < a) ++ (a, b) :: m.filter (fun c => a < c.1) else m

/-- Store a string of bytes at rising addresses, in the order of R62. -/
def Memory.writeBytes (m : List Host.Cell) (a : Nat) : List Byte → List Host.Cell
  | [] => m
  | b :: bs => Memory.writeBytes (Memory.write m a b) (a + 1) bs

/-- The canonical form from address `lo` on: addresses strictly rising and inside the memory. -/
def Memory.wfFrom (lo : Nat) : List Host.Cell → Bool
  | [] => true
  | c :: m => decide (lo ≤ c.1) && (decide (c.1 < Config.memSize) && Memory.wfFrom (c.1 + 1) m)

/-- The canonical form of the memory list. -/
def Memory.wf (m : List Host.Cell) : Bool := Memory.wfFrom 0 m

/-- `SeedFont()` (R154): every byte of the font region reads as `FONT` again, which is what it reads as when it is not
listed. -/
def Memory.seedFont (m : List Host.Cell) : List Host.Cell := m.filter fun c => !inFont c.1

end Sys2Proof.Machine
end

