-- ==== Sys2Proof/Machine/Ops.lean ====
section
/-! DEFINITION. The named operations over registers, memory and stack, taking a fault and leaving it, diagnostics, the
fetch, the advance and the tick (spec/00_scope.md R12 to R16, 30_encoding.md R74 to R79, 60_exceptions.md R133 to R140). -/

namespace Sys2Proof.Machine

/-- What executing an instruction answers. -/
abbrev Result := Host.Outcome State Fault Refusal

/-- `V[x]` (R12). Every 4-bit index names a register (R20). -/
def State.reg (s : State) (x : Nibble) : Byte := s.v[x.toNat]'(x.isLt)

/-- `V[x] <- b` (R12). -/
def State.setReg (s : State) (x : Nibble) (b : Byte) : State := { s with v := s.v.set x.toNat b x.isLt }

/-- VF, that is `V[15]` (R21). -/
def State.vf (s : State) : Byte := s.reg 0xF#4

/-- The byte `M[a]` (R13). -/
def State.byteAt (s : State) (a : Nat) : Byte := Memory.read s.mem a

/-- `M[a], M[a+1], ... <- bs` (R13). -/
def State.storeBytes (s : State) (a : Nat) (bs : List Byte) : State := { s with mem := Memory.writeBytes s.mem a bs }

/-- `I <- w` (R24). -/
def State.setI (s : State) (w : Word) : State := { s with i := w }

/-- `PC <- w` (R27). -/
def State.setPc (s : State) (w : Word) : State := { s with pc := w }

/-- `DT <- b` (R30). -/
def State.setDt (s : State) (b : Byte) : State := { s with dt := b }

/-- The framebuffer byte `FB[p]`; `p` is below 2048 (R31). -/
def State.pixel (s : State) (p : Fin 2048) : Byte := s.fb[p]

/-- Replace the framebuffer and set the draw flag (R33: every instruction that writes `FB` sets `DF`). -/
def State.show (s : State) (f : Vector Byte 2048) : State := { s with fb := f, df := true }

/-- `KEY[k]` (R32): bit k of the keypad. -/
def State.keyDown (s : State) (k : Nat) : Bool := s.key.getLsbD k

/-- `min(Pressed())`, or none when no key is pressed (R14, R130): the scan from key 0. -/
def State.lowestKey (s : State) : Option Nat := (List.range 16).find? s.keyDown

/-- `pc0`, the address of the instruction in execution, while PC is already `pc0 + 2` (R15, R76). -/
def State.pc0 (s : State) : Word := s.pc - 2#16

/-- A diagnostic event (R14, R133): recorded, and nothing else changes. -/
def State.addDiag (s : State) (d : Diag) : State := { s with diags := s.diags ++ [d] }

/-- Take a fault (R136): latch the reason and its info, and put PC back to the faulting instruction's address `pc0`. The
state it is applied to holds no write of the instruction, and OPC is the fetched word or, for a failed fetch, unchanged. -/
def State.takeFault (s : State) (pc0 : Word) (r : Fault) (info : Nat) : State :=
  { s with pc := pc0, flt := some { reason := r, info := info } }

/-- The only way out of a fault, and the reset operation (R140, R153, R154): every register, the stack, the keypad, the
framebuffer and the latch at their reset values, the font seeded again, the rest of the memory unchanged (R59). The
`load_error` output, the diagnostic history and the count of random draws are not part of R153 and stay
(assumption log, entries 2, 7 and 9). -/
def State.hostReset (s : State) : State :=
  { State.reset with
    mem := Memory.seedFont s.mem, loadError := s.loadError, diags := s.diags, randDraws := s.randDraws }

/-- Push the address of the next instruction (R29, R99): write `S[SP]`, then increment SP; none when the stack is full. -/
def State.push? (s : State) (w : Word) : Option State :=
  if h : s.sp.val < 16 then
    some { s with stack := s.stack.set s.sp.val w h, sp := ⟨s.sp.val + 1, by omega⟩ }
  else none

/-- Pop (R29, R97): decrement SP, then read `S[SP]`, which keeps its value (R28); none when the stack is empty. -/
def State.pop? (s : State) : Option (State × Word) :=
  if h : 0 < s.sp.val then
    some ({ s with sp := ⟨s.sp.val - 1, by omega⟩ }, s.stack[s.sp.val - 1]'(by omega))
  else none

/-- `Random8()` (R14, R48): the next byte of the `rand` port, a free value, and the state in which it is consumed. -/
def State.random8 (s : State) : Byte × State := (Config.rand s.randDraws, { s with randDraws := s.randDraws + 1 })

/-- `Fetch(PC)` (R75): the checks in the spec's order, odd first, then the big-endian word (R50). -/
def State.fetch (s : State) : Except Latch Word :=
  if s.pc.toNat % 2 = 1 then .error { reason := .fetchMisaligned, info := s.pc.toNat }
  else if 0xFFE < s.pc.toNat then .error { reason := .fetchOutOfRange, info := s.pc.toNat }
  else .ok (wordOfBytes (s.byteAt s.pc.toNat) (s.byteAt (s.pc.toNat + 1)))

/-- After a successful fetch (R74, R76): OPC is the word and PC moves past it. -/
def State.advance (s : State) (w : Word) : State := { s with opc := w, pc := s.pc + 2#16 }

/-- Step 5 (R77): `if DT > 0: DT <- DT - 1`, in a cycle that did not fault (R136 (d)). -/
def State.tick (s : State) : State :=
  if s.flt = none ∧ 0 < s.dt.toNat then { s with dt := s.dt - 1#8 } else s

/-- Step 4 for a word that decodes to Unknown (R79): the diagnostic, and nothing else. -/
def State.unknownOpcode (s : State) : State := s.addDiag (.unknownOpcode s.opc s.pc0)

/-- The end of a cycle: the tick follows whatever the instruction did. -/
def finishCycle : Result → Result
  | .next s => .next s.tick
  | .fault r => .fault r
  | .refused r => .refused r

/-- The number of a fault reason on the `fault` port (R135). -/
def Fault.code : Fault → Nat
  | .fetchMisaligned => 0
  | .fetchOutOfRange => 1
  | .addressOutOfRange => 2
  | .keyIndexOutOfRange => 3

/-- The number of a diagnostic kind on the `diag` port (R134). -/
def Diag.code : Diag → Nat
  | .unknownOpcode .. => 0
  | .stackOverflow .. => 1
  | .stackUnderflow .. => 2
  | .programTooLarge .. => 3

end Sys2Proof.Machine
end

