-- ==== Sys2Proof/Machine/Operands.lean ====
section
/-! DEFINITION. The operand forms: immediates and the one data addressing mode, index-relative (spec/30_encoding.md R69,
20_memory.md R52, R54, 43_index_memory.md R126). -/

namespace Sys2Proof.Machine

/-- `zext_16` of R11: a 12-bit address widened with zeros (R69). -/
def zext16 (a : Addr) : Word := a.setWidth 16

/-- The addresses `I + k`, `k = 0 .. n-1`, as unbounded naturals (R52). -/
def State.indexAddrs (s : State) (n : Nat) : List Nat := (List.range n).map fun k => s.i.toNat + k

/-- The smallest address above 0xFFF among the `n` addresses an instruction would access (R54, R137). -/
def State.firstBadAddr (s : State) (n : Nat) : Option Nat := (s.indexAddrs n).find? fun a => decide (0xFFF < a)

/-- The check of R54 before an access to `n` bytes at `I`: fault with the smallest bad address, or go on. -/
def State.guardIndex (s : State) (n : Nat) (k : Result) : Result :=
  match s.firstBadAddr n with
  | some a => .next (s.takeFault s.pc0 .addressOutOfRange a)
  | none => k

/-- `V[0], ..., V[n-1]` in order (R124). -/
def State.lowRegs (s : State) (n : Nat) : List Byte := (List.range n).map fun r => s.reg (BitVec.ofNat 4 r)

/-- `V[r] <- M[I + r]` for `r = 0 .. n-1` (R125). -/
def State.loadRegs (s : State) : Nat → State
  | 0 => s
  | n + 1 => (s.loadRegs n).setReg (BitVec.ofNat 4 n) (s.byteAt (s.i.toNat + n))

/-- `PC <- (PC + 2) mod 65536` when the condition holds (R76, R100). -/
def State.skipIf (s : State) (c : Bool) : State := if c then s.setPc (s.pc + 2#16) else s

end Sys2Proof.Machine
end

