-- ==== Sys2Proof/Machine/Flags.lean ====
section
/-! DEFINITION. Every flag value written to VF (spec/42_alu.md R119), each from the operands before the instruction. -/

namespace Sys2Proof.Machine

/-- A flag as the byte VF holds: 1 or 0. -/
def flagByte (c : Bool) : Byte := if c then 0x01#8 else 0x00#8

/-- Carry of add-reg: `V[X] + V[Y] > 255` (R112). -/
def carryFlag (a b : Byte) : Bool := decide (255 < a.toNat + b.toNat)

/-- The strict comparison of sub-reg and subn-reg: `a > b` (R113, R115; C10). -/
def greaterFlag (a b : Byte) : Bool := decide (b.toNat < a.toNat)

/-- Bit 0, shifted out by shift-right (R114). -/
def lowBitFlag (a : Byte) : Bool := a.getLsbD 0

/-- Bit 7, shifted out by shift-left (R116). -/
def highBitFlag (a : Byte) : Bool := a.getLsbD 7

/-- add-index: `I + V[X] > 0xFFF` (R121). -/
def indexFlag (i : Word) (a : Byte) : Bool := decide (0xFFF < i.toNat + a.toNat)

/-- Write a result register and then VF, in this order (R16), so that VF holds the flag when the result register is VF. -/
def State.setRegFlag (s : State) (x : Nibble) (b : Byte) (c : Bool) : State := (s.setReg x b).setReg 0xF#4 (flagByte c)

end Sys2Proof.Machine
end

