-- ==== Sys2Proof/Machine/Alu.lean ====
section
/-! DEFINITION. Register and arithmetic instructions (spec/42_alu.md R106 to R119). Sums and differences are computed in
naturals and reduced mod 256 when stored (R11, R118). -/

namespace Sys2Proof.Machine

/-- set-imm (R106). -/
def execLdImm (x : Nibble) (nn : Byte) (s : State) : Result := .next (s.setReg x nn)

/-- add-imm (R107): no flag, even when the sum wraps. -/
def execAddImm (x : Nibble) (nn : Byte) (s : State) : Result :=
  .next (s.setReg x (BitVec.ofNat 8 ((s.reg x).toNat + nn.toNat)))

/-- set-reg (R108). -/
def execLdReg (x y : Nibble) (s : State) : Result := .next (s.setReg x (s.reg y))

/-- or (R109). -/
def execOrReg (x y : Nibble) (s : State) : Result := .next (s.setReg x (s.reg x ||| s.reg y))

/-- and (R110). -/
def execAndReg (x y : Nibble) (s : State) : Result := .next (s.setReg x (s.reg x &&& s.reg y))

/-- xor (R111). -/
def execXorReg (x y : Nibble) (s : State) : Result := .next (s.setReg x (s.reg x ^^^ s.reg y))

/-- add-reg (R112): VF is the carry, written last. -/
def execAddReg (x y : Nibble) (s : State) : Result :=
  let a := s.reg x
  let b := s.reg y
  .next (s.setRegFlag x (BitVec.ofNat 8 (a.toNat + b.toNat)) (carryFlag a b))

/-- sub-reg (R113): VF is the strict `V[X] > V[Y]`, written last. -/
def execSub (x y : Nibble) (s : State) : Result :=
  let a := s.reg x
  let b := s.reg y
  .next (s.setRegFlag x (BitVec.ofNat 8 (a.toNat + 256 - b.toNat)) (greaterFlag a b))

/-- shift-right (R114): `Y` is not read; VF is the old bit 0. -/
def execShr (x _y : Nibble) (s : State) : Result :=
  let a := s.reg x
  .next (s.setRegFlag x (a >>> 1) (lowBitFlag a))

/-- subn-reg (R115): VF is the strict `V[Y] > V[X]`, written last. -/
def execSubn (x y : Nibble) (s : State) : Result :=
  let a := s.reg x
  let b := s.reg y
  .next (s.setRegFlag x (BitVec.ofNat 8 (b.toNat + 256 - a.toNat)) (greaterFlag b a))

/-- shift-left (R116): `Y` is not read; VF is the old bit 7. -/
def execShl (x _y : Nibble) (s : State) : Result :=
  let a := s.reg x
  .next (s.setRegFlag x (a <<< 1) (highBitFlag a))

/-- rand-and (R117): one byte of `RAND` AND `NN`; no flag. The byte is a free value (assumption log, entry 2). -/
def execRnd (x : Nibble) (nn : Byte) (s : State) : Result :=
  let (r, t) := s.random8
  .next (t.setReg x (r &&& nn))

end Sys2Proof.Machine
end

