-- ==== Sys2Proof/Machine/Display.lean ====
section
/-! DEFINITION. clear-display and draw (spec/40_display.md R90 to R96). -/

namespace Sys2Proof.Machine

/-- clear-display (R90): every framebuffer byte 0x00, and the draw flag set. VF is not written. -/
def execCls (s : State) : Result := .next (s.show (Vector.replicate 2048 0x00#8))

/-- The framebuffer under construction and the collision flag of draw. -/
abbrev Canvas := Vector Byte 2048 × Bool

/-- One set sprite bit at linear index `p` (R91, R92): a pixel past the buffer is dropped; else note a collision with a
fully-set pixel and toggle the pixel. -/
def togglePixel (c : Canvas) (p : Nat) : Canvas :=
  if h : p < 2048 then (c.1.set p (c.1[p] ^^^ 0xFF#8), c.2 || decide (c.1[p] = 0xFF#8)) else c

/-- The linear index of column `c` of sprite row `r` (R92 (a)): no wrap per row. -/
def pixelIndex (x0 y0 r c : Nat) : Nat := (y0 + r) * 64 + x0 + c

/-- The set bits of a sprite row, left to right: column `c` is bit `7 - c` (R94; assumption log, entry 13). -/
def rowColumns (row : Byte) : List Nat := (List.range 8).filter fun c => row.getLsbD (7 - c)

/-- The linear indices of every set sprite bit, in drawing order (R91, R92). -/
def State.spritePixels (s : State) (x0 y0 n : Nat) : List Nat :=
  (List.range n).flatMap fun r => (rowColumns (s.byteAt (s.i.toNat + r))).map fun c => pixelIndex x0 y0 r c

/-- Draw every set sprite bit on the framebuffer, the collision flag starting at 0 (R91). -/
def State.drawSprite (s : State) (x0 y0 n : Nat) : Canvas :=
  (s.spritePixels x0 y0 n).foldl togglePixel (s.fb, false)

/-- draw (R91): the origin is read first and wraps, the addresses are checked before any write (R95), VF is written last,
with 1 for at least one collision and 0 for none (R93), and the draw flag is set in every case (R96). -/
def execDrw (x y n : Nibble) (s : State) : Result :=
  let c := s.drawSprite ((s.reg x).toNat % 64) ((s.reg y).toNat % 32) n.toNat
  s.guardIndex n.toNat (.next ((s.show c.1).setReg 0xF#4 (flagByte c.2)))

end Sys2Proof.Machine
end

