-- ==== Sys2Proof/Machine/Flow.lean ====
section
/-! DEFINITION. Control flow: return, jump, call, the register skips, jump-offset (spec/41_flow.md R97 to R105). No target
is checked; a bad one faults at the next fetch. -/

namespace Sys2Proof.Machine

/-- return (R97): pop into PC, or a StackUnderflow diagnostic that leaves PC at `pc0 + 2`. -/
def execRet (s : State) : Result :=
  match s.pop? with
  | some (t, w) => .next (t.setPc w)
  | none => .next (s.addDiag (.stackUnderflow s.opc s.pc0))

/-- jump (R98). -/
def execJp (nnn : Addr) (s : State) : Result := .next (s.setPc (zext16 nnn))

/-- call (R99): push the advanced PC and jump, or a StackOverflow diagnostic with neither. -/
def execCall (nnn : Addr) (s : State) : Result :=
  match s.push? s.pc with
  | some t => .next (t.setPc (zext16 nnn))
  | none => .next (s.addDiag (.stackOverflow s.opc s.pc0))

/-- skip-eq-imm (R100). -/
def execSeImm (x : Nibble) (nn : Byte) (s : State) : Result := .next (s.skipIf (decide (s.reg x = nn)))

/-- skip-ne-imm (R101). -/
def execSneImm (x : Nibble) (nn : Byte) (s : State) : Result := .next (s.skipIf (decide (s.reg x ≠ nn)))

/-- skip-eq-reg (R102). -/
def execSeReg (x y : Nibble) (s : State) : Result := .next (s.skipIf (decide (s.reg x = s.reg y)))

/-- skip-ne-reg (R103). -/
def execSneReg (x y : Nibble) (s : State) : Result := .next (s.skipIf (decide (s.reg x ≠ s.reg y)))

/-- jump-offset (R104): `(NNN + V[0]) mod 65536`, not masked to 12 bits. -/
def execJpV0 (nnn : Addr) (s : State) : Result := .next (s.setPc (BitVec.ofNat 16 (nnn.toNat + (s.reg 0x0#4).toNat)))

end Sys2Proof.Machine
end

