-- ==== Sys2Proof/Machine/IndexMemory.lean ====
section
/-! DEFINITION. Index-register and memory instructions (spec/43_index_memory.md R120 to R126). -/

namespace Sys2Proof.Machine

/-- set-index (R120). -/
def execLdI (nnn : Addr) (s : State) : Result := .next (s.setI (zext16 nnn))

/-- add-index (R121): the sum mod 65536, not masked to 12 bits; VF tells whether it exceeds 0xFFF, written last. -/
def execAddI (x : Nibble) (s : State) : Result :=
  let a := s.reg x
  .next ((s.setI (BitVec.ofNat 16 (s.i.toNat + a.toNat))).setReg 0xF#4 (flagByte (indexFlag s.i a)))

/-- font-char (R122): `0x50 + 5 * V[X]`, `V[X]` not masked to a digit. -/
def execLdF (x : Nibble) (s : State) : Result := .next (s.setI (BitVec.ofNat 16 (fontBase + 5 * (s.reg x).toNat)))

/-- The hundreds, tens and units digits of a byte (R123). -/
def bcdDigits (b : Byte) : List Byte :=
  [BitVec.ofNat 8 (b.toNat / 100), BitVec.ofNat 8 (b.toNat / 10 % 10), BitVec.ofNat 8 (b.toNat % 10)]

/-- bcd (R123): three digit bytes at `I`, after the address check; `I` is unchanged. -/
def execLdB (x : Nibble) (s : State) : Result :=
  s.guardIndex 3 (.next (s.storeBytes s.i.toNat (bcdDigits (s.reg x))))

/-- reg-dump (R124): `V[0..X]` at `I`, after the address check; `I` advances by `X + 1`. -/
def execLdMemV (x : Nibble) (s : State) : Result :=
  let n := x.toNat + 1
  s.guardIndex n (.next ((s.storeBytes s.i.toNat (s.lowRegs n)).setI (BitVec.ofNat 16 (s.i.toNat + n))))

/-- reg-load (R125): `V[0..X]` from `I`, after the address check; `I` advances by `X + 1`. -/
def execLdVMem (x : Nibble) (s : State) : Result :=
  let n := x.toNat + 1
  s.guardIndex n (.next ((s.loadRegs n).setI (BitVec.ofNat 16 (s.i.toNat + n))))

end Sys2Proof.Machine
end

