-- ==== Sys2Proof/Machine/KeypadTimer.lean ====
section
/-! DEFINITION. Keypad and delay-timer instructions (spec/44_keypad_timer.md R127 to R132). -/

namespace Sys2Proof.Machine

/-- The key index check of R132: `KeyIndexOutOfRange` when `V[X]` exceeds 15, else go on. -/
def State.guardKey (s : State) (x : Nibble) (k : Result) : Result :=
  if 15 < (s.reg x).toNat then .next (s.takeFault s.pc0 .keyIndexOutOfRange (s.reg x).toNat) else k

/-- skip-key-pressed (R127). -/
def execSkp (x : Nibble) (s : State) : Result :=
  s.guardKey x (.next (s.skipIf (s.keyDown (s.reg x).toNat)))

/-- skip-key-not-pressed (R128). -/
def execSknp (x : Nibble) (s : State) : Result :=
  s.guardKey x (.next (s.skipIf (!s.keyDown (s.reg x).toNat)))

/-- get-delay (R129): the timer before this cycle's tick. -/
def execLdVDt (x : Nibble) (s : State) : Result := .next (s.setReg x s.dt)

/-- wait-key (R130): the lowest pressed key, or PC back to `pc0` so that the next cycle fetches the same word again. -/
def execLdVK (x : Nibble) (s : State) : Result :=
  match s.lowestKey with
  | some k => .next (s.setReg x (BitVec.ofNat 8 k))
  | none => .next (s.setPc (s.pc - 2#16))

/-- set-delay (R131); this cycle's tick follows (R77). -/
def execLdDtV (x : Nibble) (s : State) : Result := .next (s.setDt (s.reg x))

end Sys2Proof.Machine
end

