-- ==== Sys2Proof/Machine/Step.lean ====
section
/-! DEFINITION. The execute cycle (spec/30_encoding.md R74) and where the next instruction is placed. -/

namespace Sys2Proof.Machine

/-- `execute_cycle()` (R74), one `step` request (R42): nothing while a fault is latched (R140); fetch, which may take a
fault; OPC and PC advance; decode; execute, or the diagnostic of an unknown word; tick. -/
def step (s : State) : Host.Outcome State Fault Refusal :=
  match s.flt with
  | some _ => .next s
  | none =>
    match s.fetch with
    | .error f => .next (s.takeFault s.pc f.reason f.info)
    | .ok w =>
      match decode w with
      | some i => finishCycle (exec i (s.advance w))
      | none => finishCycle (.next (s.advance w).unknownOpcode)

/-- `s` with the instruction word of the table's numbering stored at PC, where `step` fetches it (R50). Nothing else is
changed; assumption log, entry 12. -/
def State.withFetchWord (s : State) (nbits w : Nat) : State :=
  s.storeBytes s.pc.toNat (bytesOfWord (tableWord nbits w))

end Sys2Proof.Machine
end

