-- ==== Sys2Proof/Machine/Assembler.lean ====
section
/-! DEFINITION. The spec's assembly syntax (spec/30_encoding.md R87 to R89): mnemonics, operands, the `DB` directive, and the
refusal of an operand too wide for its field. The names are general knowledge there (assumption log, entry 16: UNVERIFIED);
nothing the machine does rests on them. -/

namespace Sys2Proof

/-- The mnemonics of R87. -/
inductive Mnemonic where
  | CLS | RET | JP | CALL | SE | SNE | LD | ADD | OR | AND | XOR | SUB | SHR | SUBN | SHL | RND | DRW | SKP | SKNP
  deriving DecidableEq, Repr

/-- An operand as written (R89). -/
inductive AsmOperand where
  /-- A register `V<n>`. -/
  | v (n : Nat)
  /-- A number. -/
  | num (n : Nat)
  /-- The index register `I`. -/
  | i
  /-- The delay timer `DT`. -/
  | dt
  /-- A key wait `K`. -/
  | k
  /-- A font glyph `F`. -/
  | f
  /-- A BCD store `B`. -/
  | b
  /-- The memory at `I`, written `[I]`. -/
  | memI
  deriving DecidableEq, Repr

/-- A line of a program: an instruction, or the data directive `DB` (R88). -/
inductive AsmLine where
  | instr (m : Mnemonic) (ops : List AsmOperand)
  | db (bytes : List Nat)
  deriving DecidableEq, Repr

/-- A register operand, refused when no 4-bit field holds it (R89). -/
def reg? (n : Nat) : Option Nibble := if Slot.reg.fits n then some (BitVec.ofNat 4 n) else none

/-- A nibble operand, refused when wider than 4 bits (R89). -/
def nibble? (n : Nat) : Option Nibble := if Slot.nibble.fits n then some (BitVec.ofNat 4 n) else none

/-- A byte operand, refused when wider than 8 bits (R89). -/
def byte? (n : Nat) : Option Byte := if Slot.byte.fits n then some (BitVec.ofNat 8 n) else none

/-- An addr operand, refused when wider than 12 bits (R89). -/
def addr? (n : Nat) : Option Addr := if Slot.addr.fits n then some (BitVec.ofNat 12 n) else none

/-- One register operand. -/
def asmX (c : Nibble → Instr) (x : Nat) : Option Instr := (reg? x).map c

/-- Two register operands. -/
def asmXY (c : Nibble → Nibble → Instr) (x y : Nat) : Option Instr := do return c (← reg? x) (← reg? y)

/-- A register and a byte operand. -/
def asmXNN (c : Nibble → Byte → Instr) (x n : Nat) : Option Instr := do return c (← reg? x) (← byte? n)

/-- An addr operand. -/
def asmNNN (c : Addr → Instr) (n : Nat) : Option Instr := (addr? n).map c

/-- The instruction of a mnemonic and its operands (R87); none where the table has no such line or an operand does not fit
(R89). `SHR Vx` and `SHL Vx` put 0 in `Y`; a written `Vy` goes into the field, which is not read. -/
def assembleInstr : Mnemonic → List AsmOperand → Option Instr
  | .CLS, [] => some .cls
  | .RET, [] => some .ret
  | .JP, [.num n] => asmNNN .jp n
  | .JP, [.v 0, .num n] => asmNNN .jpV0 n
  | .CALL, [.num n] => asmNNN .call n
  | .SE, [.v x, .num n] => asmXNN .seImm x n
  | .SE, [.v x, .v y] => asmXY .seReg x y
  | .SNE, [.v x, .num n] => asmXNN .sneImm x n
  | .SNE, [.v x, .v y] => asmXY .sneReg x y
  | .LD, [.v x, .num n] => asmXNN .ldImm x n
  | .LD, [.v x, .v y] => asmXY .ldReg x y
  | .LD, [.i, .num n] => asmNNN .ldI n
  | .LD, [.v x, .dt] => asmX .ldVDt x
  | .LD, [.v x, .k] => asmX .ldVK x
  | .LD, [.dt, .v x] => asmX .ldDtV x
  | .LD, [.f, .v x] => asmX .ldF x
  | .LD, [.b, .v x] => asmX .ldB x
  | .LD, [.memI, .v x] => asmX .ldMemV x
  | .LD, [.v x, .memI] => asmX .ldVMem x
  | .ADD, [.v x, .num n] => asmXNN .addImm x n
  | .ADD, [.v x, .v y] => asmXY .addReg x y
  | .ADD, [.i, .v x] => asmX .addI x
  | .OR, [.v x, .v y] => asmXY .orReg x y
  | .AND, [.v x, .v y] => asmXY .andReg x y
  | .XOR, [.v x, .v y] => asmXY .xorReg x y
  | .SUB, [.v x, .v y] => asmXY .sub x y
  | .SUBN, [.v x, .v y] => asmXY .subn x y
  | .SHR, [.v x] => asmXY .shr x 0
  | .SHR, [.v x, .v y] => asmXY .shr x y
  | .SHL, [.v x] => asmXY .shl x 0
  | .SHL, [.v x, .v y] => asmXY .shl x y
  | .RND, [.v x, .num n] => asmXNN .rnd x n
  | .DRW, [.v x, .v y, .num n] => do return .drw (← reg? x) (← reg? y) (← nibble? n)
  | .SKP, [.v x] => asmX .skp x
  | .SKNP, [.v x] => asmX .sknp x
  | _, _ => none

/-- The bytes of a line: an instruction's two bytes (R67), or the bytes of `DB` as they stand (R88). -/
def assembleLine : AsmLine → Option (List Byte)
  | .instr m ops => (assembleInstr m ops).map encodeBytes
  | .db bytes => bytes.mapM byte?

/-- A program's image: its lines one after the other. -/
def assemble (lines : List AsmLine) : Option (List Byte) := (lines.mapM assembleLine).map List.flatten

end Sys2Proof
end

