-- ==== Sys2Proof/Machine/Ports.lean ====
section
/-! DEFINITION. The host's port operations, each strictly between two cycles (spec/10_state.md R41 to R48,
60_exceptions.md R152, 70_reset_and_hazards.md R153 to R158). The `reset` operation is `State.hostReset` in
Machine/Ops.lean, the `step` request is `step`, the `rand` input is `Config.rand`. -/

namespace Sys2Proof.Machine

/-- `load` (R43, R155, R156): copy an image of at most 3584 bytes to 0x200; a longer one sets `load_error`, emits
`ProgramTooLarge` (R134) with OPC as its opcode (R34) and writes nothing. -/
def State.load (s : State) (bytes : List Byte) : State :=
  if Config.maxImage < bytes.length then 
    { (s.addDiag (.programTooLarge s.opc (Config.loadEventPc s.diags.length))) with loadError := true }
  else { s.storeBytes Config.progBase bytes with loadError := false }

/-- `key_in` (R44): `KEY[k]` becomes bit k of the value, for every k. -/
def State.keyIn (s : State) (keys : BitVec 16) : State := { s with key := keys }

/-- `draw_flag_clear` (R46). -/
def State.drawFlagClear (s : State) : State := { s with df := false }

/-- `fb_addr` and `fb_data` (R45): one framebuffer byte; reading has no side effect. -/
def State.fbData (s : State) (p : BitVec 11) : Byte := s.fb[p.toNat]'(p.isLt)

/-- `draw_flag` (R46). -/
def State.drawFlag (s : State) : Bool := s.df

/-- `load_error` (R43): `ProgramTooLarge` for the last load. -/
def State.loadErrorPort (s : State) : Bool := s.loadError

/-- `opcode` (R47). -/
def State.opcodePort (s : State) : Word := s.opc

/-- `fault` (R47): the latched fault by its number (R135) and info. -/
def State.faultPort (s : State) : Option (Nat × Nat) := s.flt.map fun f => (f.reason.code, f.info)

/-- `diag` (R47): the events emitted between an earlier state and this one, oldest first. -/
def State.diagSince (s : State) (before : State) : List Diag := s.diags.drop before.diags.length

/-- Restart (R157, R158): reset, then load. -/
def State.restart (s : State) (bytes : List Byte) : State := s.hostReset.load bytes

/-- What the host may ask for that changes state (R152). -/
inductive PortOp where
  /-- `step` (R42). -/
  | step
  /-- `reset` (R43). -/
  | reset
  /-- `load` (R43). -/
  | load (bytes : List Byte)
  /-- `key_in` (R44). -/
  | keyIn (keys : BitVec 16)
  /-- `draw_flag_clear` (R46). -/
  | drawFlagClear
  deriving DecidableEq, Repr

/-- One port operation, between cycles (R42, R152). -/
def PortOp.apply (o : PortOp) (s : State) : Result :=
  match o with
  | .step => Sys2Proof.Machine.step s
  | .reset => .next s.hostReset
  | .load bytes => .next (s.load bytes)
  | .keyIn keys => .next (s.keyIn keys)
  | .drawFlagClear => .next s.drawFlagClear

/-- A host's session: port operations one after the other (R152), ending at a fault or a refusal if one came. -/
def session : List PortOp → State → Result
  | [], s => .next s
  | o :: os, s =>
    match o.apply s with
    | .next t => session os t
    | .fault r => .fault r
    | .refused r => .refused r

/-- What the host may do between two cycles of a run without starting it anew (R157 (4), R168). -/
inductive HostInput where
  /-- A write to `key_in` (R44). -/
  | keys (v : BitVec 16)
  /-- A `draw_flag_clear` (R46). -/
  | clearDrawFlag
  deriving DecidableEq, Repr

/-- The port operation of an input. -/
def HostInput.op : HostInput → PortOp
  | .keys v => .keyIn v
  | .clearDrawFlag => .drawFlagClear

/-- What the host supplies before each cycle of a run: key writes and draw-flag clears (R168). The random bytes it supplies
are the free value `Config.rand`. -/
abbrev Script := List (List HostInput)

/-- The state after an input. -/
def State.input (s : State) : HostInput → State
  | .keys v => s.keyIn v
  | .clearDrawFlag => s.drawFlagClear

/-- One cycle of a run: the host's inputs, in their order, and then a `step` request. -/
def cycleOps (ins : List HostInput) : List PortOp := ins.map HostInput.op ++ [.step]

/-- A run (R157 (4), R168) of as many cycles as the script has entries; entry n holds the host's inputs before cycle n. The
state it answers is the one right after the last cycle. -/
def hostRun (script : Script) (s : State) : Result := session (script.map cycleOps).flatten s

end Sys2Proof.Machine
end

