-- ==== Sys2Proof/Safety.lean ====
section
/-! DEFINITION. The terms claims use: what a clean run is (spec/60_exceptions.md R151, 70_reset_and_hazards.md R168), the
machine's invariant (10_state.md R27 to R31, R40), and what an instruction leaves unchanged. -/

namespace Sys2Proof.Machine

/-- `t` is the state after cycle `k` of a run from `s` in which the host supplied `script` (R168). A claim quantifies over
the script. -/
def AfterCycles (k : Nat) (script : Script) (s t : State) : Prop := script.length = k ∧ hostRun script s = .next t

/-- A run of `k` cycles that neither faulted nor emitted a diagnostic (R151). -/
def CleanAfter (k : Nat) (script : Script) (s t : State) : Prop :=
  AfterCycles k script s t ∧ t.flt = none ∧ t.diags = s.diags

/-- `t` is the state after the first cycle whose fetch address is `a`, with no fault latched (R151 (a), R168). That cycle is
the last of the script; the cycles before it fetched elsewhere. Key writes and draw-flag clears leave PC alone, so a cycle's
fetch address is the PC the cycle before it left. -/
def FirstFetchAt (a : Word) (script : Script) (s t : State) : Prop :=
  ∃ (before : Script) (last : List HostInput) (u : State), script = before ++ [last] ∧
    AfterCycles before.length before s u ∧ u.pc = a ∧
    (∀ j < before.length, ∀ v, AfterCycles j (before.take j) s v → v.pc ≠ a) ∧
    AfterCycles script.length script s t ∧ t.flt = none

/-- `FONT` is the spec's default table (R8, R56): a premise for a claim about a glyph's bytes. -/
def FontIsDefault : Prop := ∀ j, ∀ h : j < defaultFont.length, Config.font j = defaultFont[j]

/-- The assembler gives `i` for the line `m ops` when its operands fit, and refuses it when they do not (R87, R89). -/
def AssemblesWhen (m : Mnemonic) (ops : List AsmOperand) (fits : Prop) (i : Instr) : Prop :=
  (fits → assembleInstr m ops = some i) ∧ (¬fits → assembleInstr m ops = none)

/-- The next cycle is not halted and its fetch succeeds with the word `w` (R74, R75). -/
def State.Fetches (s : State) (w : Word) : Prop := s.flt = none ∧ s.fetch = .ok w

/-- The next cycle executes the instruction `i`. -/
def State.Executes (s : State) (i : Instr) : Prop := ∃ w, s.Fetches w ∧ decode w = some i

/-- The latched fault is one R135 describes: its info is what the reason's row says, and a fetch fault's info is PC. -/
def LatchLegal (pc : Word) : Option Latch → Prop
  | none => True
  | some ⟨.fetchMisaligned, a⟩ => a = pc.toNat ∧ a % 2 = 1
  | some ⟨.fetchOutOfRange, a⟩ => a = pc.toNat ∧ a % 2 = 0 ∧ 0xFFE < a
  | some ⟨.addressOutOfRange, a⟩ => 0xFFF < a ∧ a ≤ 0xFFFF
  | some ⟨.keyIndexOutOfRange, k⟩ => 15 < k ∧ k ≤ 255

/-- What holds at reset and after every step and every port operation. -/
structure State.Inv (s : State) : Prop where
  /-- The memory list is in its canonical form. -/
  memoryCanonical : Memory.wf s.mem = true
  /-- Every framebuffer byte is 0x00 or 0xFF (R31, R40 (e)). -/
  pixelsBinary : ∀ p, s.pixel p = 0x00#8 ∨ s.pixel p = 0xFF#8
  /-- PC is at most 0x10FE, the largest value any instruction produces (R27). -/
  pcBounded : s.pc.toNat ≤ 0x10FE
  /-- Every stack entry is 0 or the even address after a call (R28, R99). -/
  stackEntriesLegal : ∀ k : Fin 16, s.stack[k].toNat ≤ 0x1000 ∧ s.stack[k].toNat % 2 = 0
  /-- The fault latch holds none or a pair of R135. -/
  latchLegal : LatchLegal s.pc s.flt

/-- The pieces of state of R19, and the model's own two. -/
inductive Part where
  | memory | registers | index | pc | stack | sp | delay | framebuffer | keypad | drawFlag | opcode | fault
  | loadError | diagnostics | randDraws
  deriving DecidableEq, Repr

/-- A piece of state reads the same in `t` as in `s`; memory byte by byte, registers one by one. -/
def Part.Same (s t : State) : Part → Prop
  | .memory => ∀ a, t.byteAt a = s.byteAt a
  | .registers => ∀ r, t.reg r = s.reg r
  | .index => t.i = s.i
  | .pc => t.pc = s.pc
  | .stack => t.stack = s.stack
  | .sp => t.sp = s.sp
  | .delay => t.dt = s.dt
  | .framebuffer => t.fb = s.fb
  | .keypad => t.key = s.key
  | .drawFlag => t.df = s.df
  | .opcode => t.opc = s.opc
  | .fault => t.flt = s.flt
  | .loadError => t.loadError = s.loadError
  | .diagnostics => t.diags = s.diags
  | .randDraws => t.randDraws = s.randDraws

/-- Every piece of state outside the list reads the same. -/
def OnlyChanges (ps : List Part) (s t : State) : Prop := ∀ p, p ∉ ps → p.Same s t

/-- Every register outside the list reads the same. -/
def RegsSameBut (xs : List Nibble) (s t : State) : Prop := ∀ r, r ∉ xs → t.reg r = s.reg r

/-- Every byte outside `[a, a + n)` reads the same. -/
def BytesSameOutside (a n : Nat) (s t : State) : Prop := ∀ b, ¬(a ≤ b ∧ b < a + n) → t.byteAt b = s.byteAt b

/-- Every word whose bits under `mask` are `pat` decodes to the instruction `f` makes of it (R72). -/
def DecodesAs (mask pat : Word) (f : Word → Instr) : Prop := ∀ w, w &&& mask = pat → decode w = some (f w)

/-- The sprite bit at column `c` of row `r` is set (R91, R94): column 0 is bit 7 of the row byte. -/
def State.SpriteBit (s : State) (r c : Nat) : Prop := (s.byteAt (s.i.toNat + r)).getLsbD (7 - c) = true

/-- Some set sprite bit of an `n`-row sprite at origin (`x0`, `y0`) lands on the framebuffer index `p` (R92). -/
def State.SpriteHits (s : State) (x0 y0 n p : Nat) : Prop :=
  ∃ r < n, ∃ c < 8, s.SpriteBit r c ∧ p = (y0 + r) * 64 + x0 + c

/-- The PC column of R26, from the state at the start of the cycle, for a cycle that does not fault. -/
def pcAtEnd (i : Instr) (s : State) : Word :=
  let next := s.pc + 2#16
  let skip := s.pc + 4#16
  match i with
  | .jp nnn => zext16 nnn
  | .call nnn => if s.sp.val = 16 then next else zext16 nnn
  | .ret => if h : 0 < s.sp.val then s.stack[s.sp.val - 1]'(by omega) else next
  | .jpV0 nnn => BitVec.ofNat 16 (nnn.toNat + (s.reg 0x0#4).toNat)
  | .seImm x nn => if s.reg x = nn then skip else next
  | .sneImm x nn => if s.reg x = nn then next else skip
  | .seReg x y => if s.reg x = s.reg y then skip else next
  | .sneReg x y => if s.reg x = s.reg y then next else skip
  | .skp x => if s.keyDown (s.reg x).toNat = true then skip else next
  | .sknp x => if s.keyDown (s.reg x).toNat = true then next else skip
  | .ldVK _ => if s.key = 0x0000#16 then s.pc else next
  | .cls | .ldImm .. | .addImm .. | .ldReg .. | .orReg .. | .andReg .. | .xorReg .. | .addReg .. | .sub .. | .shr ..
  | .subn .. | .shl .. | .ldI .. | .rnd .. | .drw .. | .ldVDt .. | .ldDtV .. | .addI .. | .ldF .. | .ldB .. | .ldMemV ..
  | .ldVMem .. => next

/-- The pieces of state an instruction may change when it does not fault (R22, R23, R26, R28, R30 to R33, R52). -/
def partsOf : Instr → List Part
  | .cls => [.framebuffer, .drawFlag]
  | .ret => [.pc, .sp, .diagnostics]
  | .call _ => [.pc, .stack, .sp, .diagnostics]
  | .jp _ | .jpV0 _ | .seImm .. | .sneImm .. | .seReg .. | .sneReg .. | .skp _ | .sknp _ => [.pc]
  | .ldImm .. | .addImm .. | .ldReg .. | .orReg .. | .andReg .. | .xorReg .. | .addReg .. | .sub .. | .shr .. | .subn ..
  | .shl .. | .ldVDt _ => [.registers]
  | .rnd .. => [.registers, .randDraws]
  | .drw .. => [.registers, .framebuffer, .drawFlag]
  | .ldVK _ => [.registers, .pc]
  | .ldDtV _ => [.delay]
  | .ldI _ | .ldF _ => [.index]
  | .addI _ => [.index, .registers]
  | .ldB _ => [.memory]
  | .ldMemV _ => [.memory, .index]
  | .ldVMem _ => [.registers, .index]

/-- The registers an instruction may write (R22). -/
def WritesReg (r : Nibble) : Instr → Prop
  | .ldImm x _ | .addImm x _ | .ldReg x _ | .orReg x _ | .andReg x _ | .xorReg x _ | .rnd x _ | .ldVDt x | .ldVK x => r = x
  | .addReg x _ | .sub x _ | .shr x _ | .subn x _ | .shl x _ => r = x ∨ r = 0xF#4
  | .drw .. | .addI _ => r = 0xF#4
  | .ldVMem x => r.toNat ≤ x.toNat
  | .cls | .ret | .jp _ | .call _ | .seImm .. | .sneImm .. | .seReg .. | .sneReg .. | .ldI _ | .jpV0 _ | .skp _ | .sknp _
  | .ldDtV _ | .ldF _ | .ldB _ | .ldMemV _ => False

end Sys2Proof.Machine
end

