-- ==== Sys2Proof/Certificates/Slice0/Obligations.lean ====
section
/-! DEFINITION. The statements for the provers, each from a numbered rule of spec/ or from the sections it names. `exec` runs
in the state after the advance, so `s.pc` is `pc0 + 2` there (spec/00_scope.md R15); `step` starts at `pc0`. -/

open Sys2Proof Sys2Proof.Machine

/-! ### Encoding -/

/-- Decoding the canonical word of any instruction gives the instruction back, as a word and as two bytes in memory order
with whatever follows them (30_encoding.md R67, R68, R86; the opcode values are the spec's general knowledge, log entry 5). -/
def Obligations.DecodeOfEncodeIsTheInstruction : Prop :=
  ∀ (i : Instr) (rest : List Byte), i.wellFormed = true →
    decode (encode i) = some i ∧ decodeBytes (encodeBytes i ++ rest) = .ok (i, rest)

/-- A word decodes to an instruction of a row exactly when it has the row's fixed bits (spec/opcode_table.json match and
mask; R72, R83), and every operand is the field of R68 in its place. -/
def Obligations.DecodeIsTheOpcodeTable : Prop :=
  (∀ (w : Word) (i : Instr), decode w = some i → w &&& rowMask i = rowMatch i) ∧
  (∀ (w : Word) (j : Instr), w &&& rowMask j = rowMatch j →
    ∃ i, decode w = some i ∧ rowMask i = rowMask j ∧ rowMatch i = rowMatch j) ∧
  (∀ (w : Word) (i : Instr), decode w = some i →
    i.operands = [] ∨
    i.operands = [(.addr, w.toNat % 4096)] ∨
    i.operands = [(.reg, w.toNat / 256 % 16)] ∨
    i.operands = [(.reg, w.toNat / 256 % 16), (.byte, w.toNat % 256)] ∨
    i.operands = [(.reg, w.toNat / 256 % 16), (.reg, w.toNat / 16 % 16)] ∨
    i.operands = [(.reg, w.toNat / 256 % 16), (.reg, w.toNat / 16 % 16), (.nibble, w.toNat % 16)])

/-- The words with no instruction are exactly those R80 lists under the decoder of R72. -/
def Obligations.UnknownWordsAreThoseListed : Prop :=
  ∀ w : Word, decode w = none ↔
    (fieldFam w = 0x0#4 ∧ fieldN w ∉ [0x0#4, 0xE#4]) ∨
    (fieldFam w = 0x8#4 ∧ fieldN w ∈ [0x8#4, 0x9#4, 0xA#4, 0xB#4, 0xC#4, 0xD#4, 0xF#4]) ∨
    (fieldFam w = 0xE#4 ∧ fieldN w ∉ [0xE#4, 0x1#4]) ∨
    (fieldFam w = 0xF#4 ∧
      (fieldN w ∈ [0x0#4, 0x1#4, 0x2#4, 0x4#4, 0x6#4, 0x8#4, 0xB#4, 0xC#4, 0xD#4, 0xF#4] ∨
        (fieldN w = 0x5#4 ∧ fieldY w ∉ [0x1#4, 0x5#4, 0x6#4])))

/-- A few words of the spec and what each decodes to (R83, R86, 95_test_vectors.md S-1, T-DEC-1 to T-DEC-10). -/
def Obligations.SpecWordsDecodeAsWritten : Prop :=
  decode 0x00E0#16 = some .cls ∧ decode 0x0230#16 = some .cls ∧ decode 0x0ABE#16 = some .ret ∧
  decode 0x1234#16 = some (.jp 0x234#12) ∧ decode 0x5127#16 = some (.seReg 0x1#4 0x2#4) ∧
  decode 0x70FA#16 = some (.addImm 0x0#4 0xFA#8) ∧ decode 0x8AB4#16 = some (.addReg 0xA#4 0xB#4) ∧
  decode 0x8128#16 = none ∧ decode 0xA300#16 = some (.ldI 0x300#12) ∧ decode 0xD123#16 = some (.drw 0x1#4 0x2#4 0x3#4) ∧
  decode 0xE10E#16 = some (.skp 0x1#4) ∧ decode 0xE19F#16 = none ∧ decode 0xF317#16 = some (.ldVDt 0x3#4) ∧
  decode 0xF175#16 = none ∧ decode 0xF018#16 = none ∧ decode 0xF265#16 = some (.ldVMem 0x2#4)

/-- The byte decoder is total and takes exactly two bytes, the first on top; fewer are refused by name (R67, R84). -/
def Obligations.DecoderTakesExactlyTwoBytes : Prop :=
  (∀ bs : List Byte, bs.length < 2 → decodeBytes bs = .error .truncated) ∧
  (∀ (hi lo : Byte) (rest : List Byte), ∃ w : Word, w.toNat = hi.toNat * 256 + lo.toNat ∧
    ((∃ i, decode w = some i ∧ decodeBytes (hi :: lo :: rest) = .ok (i, rest)) ∨
      (decode w = none ∧ decodeBytes (hi :: lo :: rest) = .error (.unknownOpcode w))))

/-! ### The execute cycle -/

/-- When the core is not halted and the two bytes at an even PC up to 0xFFE decode to an instruction, the step is `exec` of
it in the state with OPC the word and PC moved past it, and then the tick: the timer goes down by one when it is above 0 and
no fault was taken (R74 to R77). -/
def Obligations.StepRunsTheDecodedInstruction : Prop :=
  ∀ (s : State) (w : Word) (i : Instr), s.flt = none → s.pc.toNat % 2 = 0 → s.pc.toNat ≤ 0xFFE →
    w.toNat = (s.byteAt s.pc.toNat).toNat * 256 + (s.byteAt (s.pc.toNat + 1)).toNat → decode w = some i →
    step s = match exec i { s with opc := w, pc := s.pc + 2#16 } with
      | .next t => .next (if t.flt = none ∧ t.dt ≠ 0x00#8 then { t with dt := t.dt - 1#8 } else t)
      | .fault r => .fault r
      | .refused r => .refused r

/-- An unknown word: the diagnostic with the word and its address, PC past it, OPC the word, the tick, and nothing else
(R79; that the tick runs is the spec's resolution C3). -/
def Obligations.UnknownWordIsANoOpWithADiagnostic : Prop :=
  ∀ (s : State) (w : Word), s.Fetches w → decode w = none →
    ∃ t, step s = .next t ∧ t.pc = s.pc + 2#16 ∧ t.opc = w ∧ t.diags = s.diags ++ [.unknownOpcode w s.pc] ∧
      t.dt.toNat = s.dt.toNat - 1 ∧ OnlyChanges [.pc, .opcode, .diagnostics, .delay] s t

/-- The fetch checks: an odd PC faults FetchMisaligned, an even one above 0xFFE faults FetchOutOfRange, each with PC as info
and nothing else changed; any other PC fetches the big-endian word there (R50, R53, R75, R136; decision D9). -/
def Obligations.FetchChecksPc : Prop :=
  ∀ s : State, s.flt = none →
    if s.pc.toNat % 2 = 1 then
      ∃ t, step s = .next t ∧ t.flt = some ⟨.fetchMisaligned, s.pc.toNat⟩ ∧ OnlyChanges [.fault] s t
    else if 0xFFE < s.pc.toNat then
      ∃ t, step s = .next t ∧ t.flt = some ⟨.fetchOutOfRange, s.pc.toNat⟩ ∧ OnlyChanges [.fault] s t
    else
      ∃ w, s.Fetches w ∧ w.extractLsb' 8 8 = s.byteAt s.pc.toNat ∧ w.extractLsb' 0 8 = s.byteAt (s.pc.toNat + 1)

/-- While a fault is latched a step request changes nothing, and over any run, whatever keys the host writes and draw-flag
clears it asks for, nothing but the keypad and the draw flag changes (R140; decision D30). -/
def Obligations.HaltedCoreDoesNothing : Prop :=
  (∀ s : State, s.flt ≠ none → step s = .next s) ∧
  (∀ (script : Script) (s : State), s.flt ≠ none →
    ∃ t, AfterCycles script.length script s t ∧ OnlyChanges [.keypad, .drawFlag] s t)

/-- The cycle is total: every instruction in every state, and every step, answers a next state; no step stops the machine
outside its own latch (R84). -/
def Obligations.EveryStepAnswersANextState : Prop :=
  (∀ (i : Instr) (s : State), ∃ t, exec i s = .next t) ∧ (∀ s : State, ∃ t, step s = .next t)

/-- A cycle emits at most one diagnostic or takes one fault, never both and never two (R141). -/
def Obligations.AtMostOneEventPerCycle : Prop :=
  ∀ s t : State, step s = .next t →
    (t.flt = s.flt ∧ (t.diags = s.diags ∨ ∃ d, t.diags = s.diags ++ [d])) ∨
    (s.flt = none ∧ t.flt ≠ none ∧ t.diags = s.diags)

/-- A fault is precise: PC is the faulting instruction's address, OPC is the word if the fetch succeeded and unchanged if
not, the latch is set, and everything else is as at the start of the cycle (R136; decision D29). -/
def Obligations.FaultIsPrecise : Prop :=
  ∀ s t : State, s.flt = none → step s = .next t → t.flt ≠ none →
    t = { s with flt := t.flt, opc := t.opc } ∧ (∀ w, s.fetch = .ok w → t.opc = w) ∧
    ((∀ w, s.fetch ≠ .ok w) → t.opc = s.opc)

/-- The timer goes down by one per executed cycle while above 0 and never wraps (R30, R77; in the cycle of an unknown word,
too: C3, D18); set-delay writes it in the same cycle before that; get-delay reads it, and no other instruction does: with
another timer value it does the same but for the timer itself; a halted or faulting cycle (R136, R140), `load`, `key_in` and
`draw_flag_clear` leave it alone. -/
def Obligations.DelayTimerIsWrittenBySetDelayAndTickOnly : Prop :=
  (∀ (s t : State) (w : Word), s.Fetches w → step s = .next t → t.flt = none →
    t.dt.toNat = (match decode w with
      | some (.ldDtV x) => (s.reg x).toNat
      | _ => s.dt.toNat) - 1) ∧
  (∀ s t : State, step s = .next t → s.flt ≠ none ∨ t.flt ≠ none → t.dt = s.dt) ∧
  (∀ (x : Nibble) (s : State), ∃ t, exec (.ldVDt x) s = .next t ∧ t.reg x = s.dt) ∧
  (∀ (i : Instr) (s t : State) (d : Byte), (∀ x, i ≠ .ldVDt x) → exec i s = .next t →
    ∃ u, exec i { s with dt := d } = .next u ∧ u = { t with dt := u.dt }) ∧
  (∀ (o : PortOp) (s t : State), o ≠ .step → o ≠ .reset → o.apply s = .next t → t.dt = s.dt)

/-- Over any session of host operations without a reset (steps, key writes, draw-flag clears and loads, in any order) that
ends without a fault and executes no set-delay, the timer goes down by the number of its cycles, stopping at 0 (R162). -/
def Obligations.DelayTimerCountsDown : Prop :=
  ∀ (os : List PortOp) (s t : State), .reset ∉ os → session os s = .next t → t.flt = none →
    (∀ (before after : List PortOp) (u : State) (x : Nibble), os = before ++ .step :: after → session before s = .next u →
      ¬u.Executes (.ldDtV x)) →
    t.dt.toNat = s.dt.toNat - os.count .step

/-- R26: PC at the end of every cycle that does not fault, for every instruction and for an unknown word. -/
def Obligations.ProgramCounterTable : Prop :=
  ∀ (s t : State) (w : Word), s.Fetches w → step s = .next t → t.flt = none →
    t.pc = match decode w with
      | some i => pcAtEnd i s
      | none => s.pc + 2#16

/-- R34: every successful fetch writes OPC and nothing else does; no instruction reads it (its value before the cycle makes
no difference); it goes into every diagnostic event, of a cycle, with the instruction's address, and of a rejected load; the
host may read it. -/
def Obligations.OpcodeRegisterHoldsTheFetchedWord : Prop :=
  (∀ (s t : State) (w : Word), s.Fetches w → step s = .next t → t.opc = w) ∧
  (∀ s t : State, (∀ w, ¬s.Fetches w) → step s = .next t → t.opc = s.opc) ∧
  (∀ (s : State) (w v : Word), s.Fetches w → step { s with opc := v } = step s) ∧
  (∀ (s t : State) (w : Word) (d : Diag), s.Fetches w → step s = .next t → t.diags = s.diags ++ [d] →
    d = .unknownOpcode w s.pc ∨ d = .stackOverflow w s.pc ∨ d = .stackUnderflow w s.pc) ∧
  (∀ (s : State) (bs : List Byte) (d : Diag), (s.load bs).diags = s.diags ++ [d] →
    ∃ pc, d = .programTooLarge (s.load bs).opc pc) ∧
  (∀ s : State, s.opcodePort = s.opc)

/-! ### Keypad, draw flag and the frame of every instruction -/

/-- R32: the core never writes the keypad; the host's `key_in` sets every key and nothing else; and only the two key skips
and wait-key read it: any other instruction does the same whatever the keys are. -/
def Obligations.KeypadIsWrittenByHostOnly : Prop :=
  (∀ s t : State, step s = .next t → t.key = s.key) ∧
  (∀ (s : State) (v : BitVec 16),
    (∀ k < 16, (s.keyIn v).keyDown k = v.getLsbD k) ∧ OnlyChanges [.keypad] s (s.keyIn v)) ∧
  (∀ (i : Instr) (s t : State) (k : BitVec 16), (∀ x, i ≠ .skp x ∧ i ≠ .sknp x ∧ i ≠ .ldVK x) → exec i s = .next t →
    exec i { s with key := k } = .next { t with key := k })

/-- R33: clear-display and draw set the draw flag, any step that changes the framebuffer leaves it set, no step clears it;
`draw_flag_clear` clears it and nothing else, `reset` clears it, and the other host operations leave it alone. -/
def Obligations.DrawFlagIsSetByDisplayAndClearedByHost : Prop :=
  (∀ s t : State, exec .cls s = .next t → t.df = true) ∧
  (∀ (x y n : Nibble) (s t : State), s.flt = none → exec (.drw x y n) s = .next t → t.flt = none → t.df = true) ∧
  (∀ s t : State, step s = .next t → (t.fb ≠ s.fb ∨ s.df = true) → t.df = true) ∧
  (∀ s : State, s.drawFlagClear.df = false ∧ OnlyChanges [.drawFlag] s s.drawFlagClear ∧ s.hostReset.df = false) ∧
  (∀ (s : State) (bs : List Byte) (v : BitVec 16), (s.load bs).df = s.df ∧ (s.keyIn v).df = s.df)

/-- No instruction reads the draw flag: a cycle does the same whatever it was, but for the flag itself (R37 (c)). -/
def Obligations.DrawFlagIsNeverRead : Prop :=
  ∀ (s t : State) (b : Bool), step s = .next t →
    ∃ u, step { s with df := b } = .next u ∧ u = { t with df := u.df }

/-- The frame of every instruction: without a fault it changes only its pieces of state, with one only PC, back to `pc0`,
and the latch (R22, R23, R28, R30 to R33, R52, R136). -/
def Obligations.InstructionsChangeOnlyTheirParts : Prop :=
  ∀ (i : Instr) (s t : State), s.flt = none → exec i s = .next t →
    (t.flt = none → OnlyChanges (partsOf i) s t) ∧
    (t.flt ≠ none → OnlyChanges [.pc, .fault] s t ∧ t.pc = s.pc - 2#16)

/-- Which registers each instruction may write: every other register reads as before (R22). -/
def Obligations.RegistersWrittenByEachInstruction : Prop :=
  ∀ (i : Instr) (s t : State) (r : Nibble), exec i s = .next t → ¬WritesReg r i → t.reg r = s.reg r

/-! ### Registers and arithmetic -/

/-- set-imm and set-reg (R106, R108). -/
def Obligations.SetRegisterFromImmediateOrRegister : Prop :=
  DecodesAs 0xF000#16 0x6000#16 (fun w => .ldImm (fieldX w) (fieldNN w)) ∧
  DecodesAs 0xF00F#16 0x8000#16 (fun w => .ldReg (fieldX w) (fieldY w)) ∧
  (∀ (x : Nibble) (nn : Byte) (s : State), ∃ t, exec (.ldImm x nn) s = .next t ∧ t.reg x = nn ∧
    RegsSameBut [x] s t ∧ OnlyChanges [.registers] s t) ∧
  (∀ (x y : Nibble) (s : State), ∃ t, exec (.ldReg x y) s = .next t ∧ t.reg x = s.reg y ∧
    RegsSameBut [x] s t ∧ OnlyChanges [.registers] s t)

/-- add-imm (R107): the sum mod 256, and no flag: VF changes only as the destination. -/
def Obligations.AddImmediateWrapsWithoutFlag : Prop :=
  DecodesAs 0xF000#16 0x7000#16 (fun w => .addImm (fieldX w) (fieldNN w)) ∧
  (∀ (x : Nibble) (nn : Byte) (s : State), ∃ t, exec (.addImm x nn) s = .next t ∧
    (t.reg x).toNat = ((s.reg x).toNat + nn.toNat) % 256 ∧ RegsSameBut [x] s t ∧ OnlyChanges [.registers] s t)

/-- or, and, xor bit by bit; VF is written only as the destination (R109, R110, R111). -/
def Obligations.LogicalOperationsWriteNoFlag : Prop :=
  DecodesAs 0xF00F#16 0x8001#16 (fun w => .orReg (fieldX w) (fieldY w)) ∧
  DecodesAs 0xF00F#16 0x8002#16 (fun w => .andReg (fieldX w) (fieldY w)) ∧
  DecodesAs 0xF00F#16 0x8003#16 (fun w => .xorReg (fieldX w) (fieldY w)) ∧
  (∀ (x y : Nibble) (s : State),
    (∃ t, exec (.orReg x y) s = .next t ∧
      (∀ k < 8, (t.reg x).getLsbD k = ((s.reg x).getLsbD k || (s.reg y).getLsbD k)) ∧
      RegsSameBut [x] s t ∧ OnlyChanges [.registers] s t) ∧
    (∃ t, exec (.andReg x y) s = .next t ∧
      (∀ k < 8, (t.reg x).getLsbD k = ((s.reg x).getLsbD k && (s.reg y).getLsbD k)) ∧
      RegsSameBut [x] s t ∧ OnlyChanges [.registers] s t) ∧
    (∃ t, exec (.xorReg x y) s = .next t ∧
      (∀ k < 8, (t.reg x).getLsbD k = ((s.reg x).getLsbD k ^^ (s.reg y).getLsbD k)) ∧
      RegsSameBut [x] s t ∧ OnlyChanges [.registers] s t))

/-- add-reg (R112): the sum mod 256 and the carry, VF last. -/
def Obligations.AddRegistersSetsCarry : Prop :=
  DecodesAs 0xF00F#16 0x8004#16 (fun w => .addReg (fieldX w) (fieldY w)) ∧
  (∀ (x y : Nibble) (s : State), ∃ t, exec (.addReg x y) s = .next t ∧
    t.vf.toNat = (if (s.reg x).toNat + (s.reg y).toNat > 255 then 1 else 0) ∧
    (x ≠ 0xF#4 → (t.reg x).toNat = ((s.reg x).toNat + (s.reg y).toNat) % 256) ∧
    RegsSameBut [x, 0xF#4] s t ∧ OnlyChanges [.registers] s t)

/-- sub-reg and subn-reg (R113, R115): the difference mod 256 and the strict comparison, VF last. -/
def Obligations.SubtractionsSetStrictGreater : Prop :=
  DecodesAs 0xF00F#16 0x8005#16 (fun w => .sub (fieldX w) (fieldY w)) ∧
  DecodesAs 0xF00F#16 0x8007#16 (fun w => .subn (fieldX w) (fieldY w)) ∧
  (∀ (x y : Nibble) (s : State),
    (∃ t, exec (.sub x y) s = .next t ∧
      t.vf.toNat = (if (s.reg x).toNat > (s.reg y).toNat then 1 else 0) ∧
      (x ≠ 0xF#4 → ((t.reg x).toNat : Int) = ((s.reg x).toNat - (s.reg y).toNat : Int) % 256) ∧
      RegsSameBut [x, 0xF#4] s t ∧ OnlyChanges [.registers] s t) ∧
    (∃ t, exec (.subn x y) s = .next t ∧
      t.vf.toNat = (if (s.reg y).toNat > (s.reg x).toNat then 1 else 0) ∧
      (x ≠ 0xF#4 → ((t.reg x).toNat : Int) = ((s.reg y).toNat - (s.reg x).toNat : Int) % 256) ∧
      RegsSameBut [x, 0xF#4] s t ∧ OnlyChanges [.registers] s t))

/-- shift-right and shift-left (R114, R116): by one bit, VF the bit shifted out, written last; `Y` is not read. -/
def Obligations.ShiftsMoveOneBitIntoVf : Prop :=
  DecodesAs 0xF00F#16 0x8006#16 (fun w => .shr (fieldX w) (fieldY w)) ∧
  DecodesAs 0xF00F#16 0x800E#16 (fun w => .shl (fieldX w) (fieldY w)) ∧
  (∀ (x y : Nibble) (s : State),
    (∃ t, exec (.shr x y) s = .next t ∧ t.vf.toNat = (s.reg x).toNat % 2 ∧
      (x ≠ 0xF#4 → (t.reg x).toNat = (s.reg x).toNat / 2) ∧
      RegsSameBut [x, 0xF#4] s t ∧ OnlyChanges [.registers] s t) ∧
    (∃ t, exec (.shl x y) s = .next t ∧ t.vf.toNat = (s.reg x).toNat / 128 ∧
      (x ≠ 0xF#4 → (t.reg x).toNat = (s.reg x).toNat * 2 % 256) ∧
      RegsSameBut [x, 0xF#4] s t ∧ OnlyChanges [.registers] s t))

/-- rand-and: the destination is the next byte of the `rand` port, a free value, AND the immediate; one byte is consumed; no
flag (42_alu.md, decision D20; log entry 2). -/
def Obligations.RandomByteIsMaskedByImmediate : Prop :=
  ∀ (x : Nibble) (nn : Byte) (s : State), ∃ t, exec (.rnd x nn) s = .next t ∧
    t.reg x = Config.rand s.randDraws &&& nn ∧ t.randDraws = s.randDraws + 1 ∧
    RegsSameBut [x] s t ∧ OnlyChanges [.registers, .randDraws] s t

/-- R119: VF after each instruction that writes it as a flag, from the operands before the instruction, for every `X`
including 15; and VF is 0 at reset. -/
def Obligations.FlagTable : Prop :=
  (∀ (x y : Nibble) (s t : State), exec (.addReg x y) s = .next t →
    t.vf.toNat = if (s.reg x).toNat + (s.reg y).toNat > 255 then 1 else 0) ∧
  (∀ (x y : Nibble) (s t : State), exec (.sub x y) s = .next t →
    t.vf.toNat = if (s.reg x).toNat > (s.reg y).toNat then 1 else 0) ∧
  (∀ (x y : Nibble) (s t : State), exec (.shr x y) s = .next t → t.vf.toNat = (s.reg x).toNat % 2) ∧
  (∀ (x y : Nibble) (s t : State), exec (.subn x y) s = .next t →
    t.vf.toNat = if (s.reg y).toNat > (s.reg x).toNat then 1 else 0) ∧
  (∀ (x y : Nibble) (s t : State), exec (.shl x y) s = .next t → t.vf.toNat = (s.reg x).toNat / 128) ∧
  (∀ (x y n : Nibble) (s t : State), s.flt = none → exec (.drw x y n) s = .next t → t.flt = none →
    ((∃ p : Fin 2048, s.SpriteHits ((s.reg x).toNat % 64) ((s.reg y).toNat % 32) n.toNat p.val ∧ s.pixel p = 0xFF#8) →
      t.vf.toNat = 1) ∧
    ((¬∃ p : Fin 2048, s.SpriteHits ((s.reg x).toNat % 64) ((s.reg y).toNat % 32) n.toNat p.val ∧ s.pixel p = 0xFF#8) →
      t.vf.toNat = 0)) ∧
  (∀ (x : Nibble) (s t : State), exec (.addI x) s = .next t →
    t.vf.toNat = if s.i.toNat + (s.reg x).toNat > 0xFFF then 1 else 0) ∧
  State.reset.vf.toNat = 0

/-! ### Control flow -/

/-- jump and jump-offset (R98, R104): the target as it is, unchecked and unmasked. -/
def Obligations.JumpsSetPc : Prop :=
  DecodesAs 0xF000#16 0x1000#16 (fun w => .jp (fieldNNN w)) ∧
  DecodesAs 0xF000#16 0xB000#16 (fun w => .jpV0 (fieldNNN w)) ∧
  (∀ (nnn : Addr) (s : State),
    (∃ t, exec (.jp nnn) s = .next t ∧ t.pc.toNat = nnn.toNat ∧ OnlyChanges [.pc] s t) ∧
    (∃ t, exec (.jpV0 nnn) s = .next t ∧ t.pc.toNat = (nnn.toNat + (s.reg 0x0#4).toNat) % 65536 ∧
      OnlyChanges [.pc] s t))

/-- The four register skips (R100, R101, R102, R103): two more bytes when the comparison holds. -/
def Obligations.RegisterSkips : Prop :=
  DecodesAs 0xF000#16 0x3000#16 (fun w => .seImm (fieldX w) (fieldNN w)) ∧
  DecodesAs 0xF000#16 0x4000#16 (fun w => .sneImm (fieldX w) (fieldNN w)) ∧
  DecodesAs 0xF000#16 0x5000#16 (fun w => .seReg (fieldX w) (fieldY w)) ∧
  DecodesAs 0xF000#16 0x9000#16 (fun w => .sneReg (fieldX w) (fieldY w)) ∧
  (∀ (x y : Nibble) (nn : Byte) (s : State),
    (∃ t, exec (.seImm x nn) s = .next t ∧ OnlyChanges [.pc] s t ∧
      t.pc.toNat = (s.pc.toNat + if s.reg x = nn then 2 else 0) % 65536) ∧
    (∃ t, exec (.sneImm x nn) s = .next t ∧ OnlyChanges [.pc] s t ∧
      t.pc.toNat = (s.pc.toNat + if s.reg x ≠ nn then 2 else 0) % 65536) ∧
    (∃ t, exec (.seReg x y) s = .next t ∧ OnlyChanges [.pc] s t ∧
      t.pc.toNat = (s.pc.toNat + if s.reg x = s.reg y then 2 else 0) % 65536) ∧
    (∃ t, exec (.sneReg x y) s = .next t ∧ OnlyChanges [.pc] s t ∧
      t.pc.toNat = (s.pc.toNat + if s.reg x ≠ s.reg y then 2 else 0) % 65536))

/-- call: with room on the stack, the advanced PC goes to `S[SP]`, SP goes up and PC is the target; on a full stack a
StackOverflow diagnostic and nothing else (41_flow.md; decision D10). -/
def Obligations.CallPushesAndJumps : Prop :=
  ∀ (nnn : Addr) (s : State),
    (s.sp.val < 16 → ∃ t, exec (.call nnn) s = .next t ∧ t.pc.toNat = nnn.toNat ∧ t.sp.val = s.sp.val + 1 ∧
      (∀ k : Fin 16, t.stack[k] = if k.val = s.sp.val then s.pc else s.stack[k]) ∧ OnlyChanges [.pc, .stack, .sp] s t) ∧
    (s.sp.val = 16 → ∃ t, exec (.call nnn) s = .next t ∧ t.diags = s.diags ++ [.stackOverflow s.opc (s.pc - 2#16)] ∧
      OnlyChanges [.diagnostics] s t)

/-- return: with an entry on the stack, SP goes down and PC is the entry it then names, which keeps its value; on an empty
stack a StackUnderflow diagnostic and nothing else (41_flow.md; decisions D11, D23). -/
def Obligations.ReturnPopsIntoPc : Prop :=
  ∀ s : State,
    (∀ k : Fin 16, s.sp.val = k.val + 1 → ∃ t, exec .ret s = .next t ∧ t.sp.val = k.val ∧ t.pc = s.stack[k] ∧
      OnlyChanges [.pc, .sp] s t) ∧
    (s.sp.val = 0 → ∃ t, exec .ret s = .next t ∧ t.diags = s.diags ++ [.stackUnderflow s.opc (s.pc - 2#16)] ∧
      OnlyChanges [.diagnostics] s t)

/-- A return that finds the stack as the call left it comes back to the instruction after the call, with SP as it was
before the call (41_flow.md, the LIFO discipline of R29). -/
def Obligations.CallThenReturnComesBack : Prop :=
  ∀ (nnn : Addr) (s t u : State), s.sp.val < 16 → exec (.call nnn) s = .next t → u.stack = t.stack → u.sp = t.sp →
    ∃ v, exec .ret u = .next v ∧ v.pc = s.pc ∧ v.sp = s.sp

/-! ### Index register and memory -/

/-- set-index and font-char (R120, R122): the register is not masked to a digit. -/
def Obligations.SetIndexAndFontAddress : Prop :=
  DecodesAs 0xF000#16 0xA000#16 (fun w => .ldI (fieldNNN w)) ∧
  DecodesAs 0xF00F#16 0xF009#16 (fun w => .ldF (fieldX w)) ∧
  (∀ (nnn : Addr) (s : State), ∃ t, exec (.ldI nnn) s = .next t ∧ t.i.toNat = nnn.toNat ∧ OnlyChanges [.index] s t) ∧
  (∀ (x : Nibble) (s : State), ∃ t, exec (.ldF x) s = .next t ∧ t.i.toNat = 0x50 + 5 * (s.reg x).toNat ∧
    OnlyChanges [.index] s t)

/-- add-index (R121): the sum mod 65536, and VF tells whether the sum exceeds 0xFFF; the operand is read first. -/
def Obligations.AddIndexSetsOverflow : Prop :=
  DecodesAs 0xF00F#16 0xF00E#16 (fun w => .addI (fieldX w)) ∧
  (∀ (x : Nibble) (s : State), ∃ t, exec (.addI x) s = .next t ∧
    t.i.toNat = (s.i.toNat + (s.reg x).toNat) % 65536 ∧
    t.vf.toNat = (if s.i.toNat + (s.reg x).toNat > 0xFFF then 1 else 0) ∧
    RegsSameBut [0xF#4] s t ∧ OnlyChanges [.index, .registers] s t)

/-- bcd inside the memory: the three digits at `I`, every other byte and everything else as before (43_index_memory.md). -/
def Obligations.BcdStoresThreeDigits : Prop :=
  ∀ (x : Nibble) (s : State), s.i.toNat + 3 ≤ 0x1000 → ∃ t, exec (.ldB x) s = .next t ∧
    (t.byteAt s.i.toNat).toNat = (s.reg x).toNat / 100 ∧
    (t.byteAt (s.i.toNat + 1)).toNat = (s.reg x).toNat / 10 % 10 ∧
    (t.byteAt (s.i.toNat + 2)).toNat = (s.reg x).toNat % 10 ∧
    BytesSameOutside s.i.toNat 3 s t ∧ OnlyChanges [.memory] s t

/-- reg-dump inside the memory: `V[0..X]` at `I`, every other byte as before, `I` advanced by `X + 1`
(43_index_memory.md). -/
def Obligations.RegisterDumpStoresAndAdvances : Prop :=
  ∀ (x : Nibble) (s : State), s.i.toNat + x.toNat + 1 ≤ 0x1000 → ∃ t, exec (.ldMemV x) s = .next t ∧
    (∀ r : Nibble, r.toNat ≤ x.toNat → t.byteAt (s.i.toNat + r.toNat) = s.reg r) ∧
    t.i.toNat = s.i.toNat + x.toNat + 1 ∧ BytesSameOutside s.i.toNat (x.toNat + 1) s t ∧
    OnlyChanges [.memory, .index] s t

/-- reg-load inside the memory: `V[0..X]` from `I`, the other registers and the memory as before, `I` advanced by `X + 1`
(43_index_memory.md). -/
def Obligations.RegisterLoadReadsAndAdvances : Prop :=
  ∀ (x : Nibble) (s : State), s.i.toNat + x.toNat + 1 ≤ 0x1000 → ∃ t, exec (.ldVMem x) s = .next t ∧
    (∀ r : Nibble, t.reg r = if r.toNat ≤ x.toNat then s.byteAt (s.i.toNat + r.toNat) else s.reg r) ∧
    t.i.toNat = s.i.toNat + x.toNat + 1 ∧ OnlyChanges [.registers, .index] s t

/-- draw, bcd, reg-dump and reg-load, when one of the `n` bytes they access at `I` lies above 0xFFF: the fault with the
smallest such address, PC back to the instruction, and nothing written (R54, R137, R95; decision D8). -/
def Obligations.MemoryInstructionsFaultPastTheEnd : Prop :=
  ∀ (i : Instr) (n : Nat) (s : State), s.i.toNat + n > 0x1000 →
    ((∃ x y m, i = .drw x y m ∧ n = m.toNat ∧ 0 < n) ∨ (∃ x, i = .ldB x ∧ n = 3) ∨
      (∃ x, i = .ldMemV x ∧ n = x.toNat + 1) ∨ (∃ x, i = .ldVMem x ∧ n = x.toNat + 1)) →
    ∃ t a, exec i s = .next t ∧ t.flt = some ⟨.addressOutOfRange, a⟩ ∧
      (s.i.toNat ≤ a ∧ a < s.i.toNat + n ∧ 0xFFF < a ∧ ∀ b, s.i.toNat ≤ b → b < a → b ≤ 0xFFF) ∧
      t.pc = s.pc - 2#16 ∧ OnlyChanges [.pc, .fault] s t

/-- A reg-dump and then a reg-load of as many registers from the same place restores them, whatever the registers held in
between (43_index_memory.md, R62). -/
def Obligations.DumpThenLoadRestoresRegisters : Prop :=
  ∀ (x : Nibble) (s t u : State), s.i.toNat + x.toNat + 1 ≤ 0x1000 → exec (.ldMemV x) s = .next t →
    u.mem = t.mem → u.i = s.i →
    ∃ v, exec (.ldVMem x) u = .next v ∧ (∀ r : Nibble, r.toNat ≤ x.toNat → v.reg r = s.reg r) ∧ v.i = t.i

/-- Bytes stored by a reg-dump are fetched as the instruction they form: `V[0]` on top, `V[1]` below (R51, R64). -/
def Obligations.DumpedBytesAreFetchedBigEndian : Prop :=
  ∀ (x : Nibble) (s t u : State), 1 ≤ x.toNat → s.i.toNat % 2 = 0 → s.i.toNat + x.toNat + 1 ≤ 0x1000 →
    exec (.ldMemV x) s = .next t → u.mem = t.mem → u.pc = s.i →
    ∃ w : Word, u.fetch = .ok w ∧ w.toNat = (s.reg 0x0#4).toNat * 256 + (s.reg 0x1#4).toNat

/-! ### Keypad and timer -/

/-- get-delay and set-delay (R129, R131): the timer before the tick is read; the cycle that sets it also ticks it. -/
def Obligations.DelayTimerReadAndWrite : Prop :=
  DecodesAs 0xF00F#16 0xF007#16 (fun w => .ldVDt (fieldX w)) ∧
  DecodesAs 0xF0FF#16 0xF015#16 (fun w => .ldDtV (fieldX w)) ∧
  (∀ (x : Nibble) (s : State), ∃ t, exec (.ldVDt x) s = .next t ∧ t.reg x = s.dt ∧ RegsSameBut [x] s t ∧
    OnlyChanges [.registers] s t) ∧
  (∀ (x : Nibble) (s : State), ∃ t, exec (.ldDtV x) s = .next t ∧ t.dt = s.reg x ∧ OnlyChanges [.delay] s t) ∧
  (∀ (x : Nibble) (s : State), s.Executes (.ldVDt x) →
    ∃ t, step s = .next t ∧ t.reg x = s.dt ∧ t.dt.toNat = s.dt.toNat - 1) ∧
  (∀ (x : Nibble) (s : State), s.Executes (.ldDtV x) → ∃ t, step s = .next t ∧ t.dt.toNat = (s.reg x).toNat - 1)

/-- wait-key: the lowest pressed key into the register, or, with no key pressed, PC back by two and nothing else
(44_keypad_timer.md; decision D12). -/
def Obligations.WaitKeyTakesLowestKeyOrStalls : Prop :=
  ∀ (x : Nibble) (s : State),
    (∀ k < 16, s.keyDown k = true → (∀ j < k, s.keyDown j = false) →
      ∃ t, exec (.ldVK x) s = .next t ∧ (t.reg x).toNat = k ∧ RegsSameBut [x] s t ∧ OnlyChanges [.registers] s t) ∧
    ((∀ k < 16, s.keyDown k = false) →
      ∃ t, exec (.ldVK x) s = .next t ∧ t.pc = s.pc - 2#16 ∧ OnlyChanges [.pc] s t)

/-- The key skips for a key index up to 15 (44_keypad_timer.md). -/
def Obligations.KeySkipsTestTheKey : Prop :=
  ∀ (x : Nibble) (s : State), (s.reg x).toNat ≤ 15 →
    (∃ t, exec (.skp x) s = .next t ∧ OnlyChanges [.pc] s t ∧
      t.pc.toNat = (s.pc.toNat + if s.keyDown (s.reg x).toNat = true then 2 else 0) % 65536) ∧
    (∃ t, exec (.sknp x) s = .next t ∧ OnlyChanges [.pc] s t ∧
      t.pc.toNat = (s.pc.toNat + if s.keyDown (s.reg x).toNat = true then 0 else 2) % 65536)

/-- The key skips fault KeyIndexOutOfRange for a key index above 15, whatever the keys are (R132, R139; decision D13). -/
def Obligations.KeySkipsFaultPastKeyFifteen : Prop :=
  ∀ (i : Instr) (x : Nibble) (s : State), 15 < (s.reg x).toNat → i = .skp x ∨ i = .sknp x →
    ∃ t, exec i s = .next t ∧ t.flt = some ⟨.keyIndexOutOfRange, (s.reg x).toNat⟩ ∧ t.pc = s.pc - 2#16 ∧
      OnlyChanges [.pc, .fault] s t

/-! ### Display -/

/-- clear-display (R90). -/
def Obligations.ClearDisplayZeroesAndFlags : Prop :=
  DecodesAs 0xF00F#16 0x0000#16 (fun _ => .cls) ∧
  (∀ s : State, ∃ t, exec .cls s = .next t ∧ (∀ p, t.pixel p = 0x00#8) ∧ t.df = true ∧
    OnlyChanges [.framebuffer, .drawFlag] s t)

/-- draw inside the memory: exactly the pixels a set sprite bit lands on, at the linear index with row bleed and clamp, are
toggled; VF is 1 when one of them was fully set before and else 0; the draw flag is set; nothing else changes
(40_display.md; decisions D5, D6, D7). -/
def Obligations.DrawTogglesTheSpritePixels : Prop :=
  ∀ (x y n : Nibble) (s : State), n.toNat = 0 ∨ s.i.toNat + n.toNat ≤ 0x1000 →
    ∃ t, exec (.drw x y n) s = .next t ∧
      (∀ p : Fin 2048,
        (s.SpriteHits ((s.reg x).toNat % 64) ((s.reg y).toNat % 32) n.toNat p.val → t.pixel p = s.pixel p ^^^ 0xFF#8) ∧
        (¬s.SpriteHits ((s.reg x).toNat % 64) ((s.reg y).toNat % 32) n.toNat p.val → t.pixel p = s.pixel p)) ∧
      ((∃ p : Fin 2048, s.SpriteHits ((s.reg x).toNat % 64) ((s.reg y).toNat % 32) n.toNat p.val ∧ s.pixel p = 0xFF#8) →
        t.vf = 0x01#8) ∧
      ((¬∃ p : Fin 2048, s.SpriteHits ((s.reg x).toNat % 64) ((s.reg y).toNat % 32) n.toNat p.val ∧ s.pixel p = 0xFF#8) →
        t.vf = 0x00#8) ∧
      t.df = true ∧ RegsSameBut [0xF#4] s t ∧ OnlyChanges [.registers, .framebuffer, .drawFlag] s t

/-- Drawing the same sprite twice at the same place restores the framebuffer, and on a framebuffer of 0x00 and 0xFF the
second draw reports a collision exactly when the first one set a pixel (40_display.md, 95_test_vectors.md S-4). -/
def Obligations.DrawTwiceRestoresTheFramebuffer : Prop :=
  ∀ (x y n : Nibble) (s t u : State), x ≠ 0xF#4 → y ≠ 0xF#4 → s.flt = none → exec (.drw x y n) s = .next t →
    t.flt = none → exec (.drw x y n) t = .next u →
    u.fb = s.fb ∧ ((∀ p, s.pixel p = 0x00#8 ∨ s.pixel p = 0xFF#8) →
      (u.vf = 0x01#8 ↔ ∃ p : Fin 2048, s.pixel p = 0x00#8 ∧ t.pixel p = 0xFF#8))

/-! ### Invariant, reset and load -/

/-- The invariant holds at reset. -/
def Obligations.InvariantHoldsAtReset : Prop := State.reset.Inv

/-- Every step keeps the invariant: the memory's canonical form, a framebuffer of 0x00 and 0xFF, PC at most 0x10FE, legal
stack entries, a legal fault latch (10_state.md R27, R31, R40; 60_exceptions.md R135). -/
def Obligations.StepKeepsTheInvariant : Prop :=
  ∀ s t : State, s.Inv → step s = .next t → t.Inv

/-- Every session of host operations, steps among them, keeps the invariant and answers a next state (R152). -/
def Obligations.SessionsKeepTheInvariant : Prop :=
  ∀ (os : List PortOp) (s : State), s.Inv → ∃ t, session os s = .next t ∧ t.Inv

/-- R154: after any reset, the first one too, the 80 bytes at 0x50 are `FONT`, whatever font that is (log entry 4); the reset
operation leaves every byte outside as it was, and a second reset changes no byte. -/
def Obligations.ResetSeedsTheFont : Prop :=
  (∀ s t : State, t = s.hostReset ∨ t = State.reset → ∀ j < 80, t.byteAt (0x50 + j) = Config.font j) ∧
  (∀ s : State, BytesSameOutside 0x50 80 s s.hostReset) ∧
  (∀ s t : State, t = s.hostReset ∨ t = State.reset → ∀ a, t.hostReset.byteAt a = t.byteAt a)

/-- The reset operation gives every register its reset value, and the state after the first reset has the same values
(10_state.md and 70_reset_and_hazards.md; decision D15 for DF, OPC and FLT; the latch, too, is cleared). -/
def Obligations.ResetClearsEveryRegister : Prop :=
  ∀ s t : State, t = s.hostReset ∨ t = State.reset →
    (∀ r, t.reg r = 0x00#8) ∧ t.i.toNat = 0 ∧ t.pc.toNat = 0x200 ∧ (∀ k : Fin 16, t.stack[k] = 0x0000#16) ∧
    t.sp.val = 0 ∧ t.dt.toNat = 0 ∧ (∀ p, t.pixel p = 0x00#8) ∧ (∀ k < 16, t.keyDown k = false) ∧ t.df = false ∧
    t.opc.toNat = 0 ∧ t.flt = none

/-- load of an image that fits: its bytes at 0x200, `load_error` false, every other byte and everything else as before
(70_reset_and_hazards.md). -/
def Obligations.LoadCopiesTheImage : Prop :=
  ∀ (s : State) (bs : List Byte), bs.length ≤ 3584 →
    (∀ j : Nat, ∀ h : j < bs.length, (s.load bs).byteAt (0x200 + j) = bs[j]) ∧
    BytesSameOutside 0x200 bs.length s (s.load bs) ∧ (s.load bs).loadError = false ∧
    OnlyChanges [.memory, .loadError] s (s.load bs)

/-- load of a longer image writes nothing, sets `load_error` and reports ProgramTooLarge with OPC as its opcode (R34), its pc
whatever it may be (70_reset_and_hazards.md; decision D21; log entry 8). -/
def Obligations.TooLargeImageIsRejected : Prop :=
  ∀ (s : State) (bs : List Byte), bs.length > 3584 →
    (s.load bs).loadError = true ∧ (∃ pc, (s.load bs).diags = s.diags ++ [.programTooLarge s.opc pc]) ∧
    OnlyChanges [.loadError, .diagnostics] s (s.load bs)

/-- Every line of R87 assembles to its instruction with the operands as written when each fits its field, and is refused when
one is wider (R89); `SHR Vx` and `SHL Vx` put 0 in `Y`, and a written `Vy` goes into the field. `DB` places its bytes as they
stand and is refused when one is wider than 8 bits (R88). General knowledge in the spec; log entry 16. -/
def Obligations.AssemblerRefusesWideOperands : Prop :=
  AssemblesWhen .CLS [] True .cls ∧ AssemblesWhen .RET [] True .ret ∧
  (∀ n : Nat,
    AssemblesWhen .JP [.num n] (n < 4096) (.jp (BitVec.ofNat 12 n)) ∧
    AssemblesWhen .CALL [.num n] (n < 4096) (.call (BitVec.ofNat 12 n)) ∧
    AssemblesWhen .LD [.i, .num n] (n < 4096) (.ldI (BitVec.ofNat 12 n)) ∧
    AssemblesWhen .JP [.v 0, .num n] (n < 4096) (.jpV0 (BitVec.ofNat 12 n))) ∧
  (∀ x : Nat,
    AssemblesWhen .SKP [.v x] (x < 16) (.skp (BitVec.ofNat 4 x)) ∧
    AssemblesWhen .SKNP [.v x] (x < 16) (.sknp (BitVec.ofNat 4 x)) ∧
    AssemblesWhen .LD [.v x, .dt] (x < 16) (.ldVDt (BitVec.ofNat 4 x)) ∧
    AssemblesWhen .LD [.v x, .k] (x < 16) (.ldVK (BitVec.ofNat 4 x)) ∧
    AssemblesWhen .LD [.dt, .v x] (x < 16) (.ldDtV (BitVec.ofNat 4 x)) ∧
    AssemblesWhen .ADD [.i, .v x] (x < 16) (.addI (BitVec.ofNat 4 x)) ∧
    AssemblesWhen .LD [.f, .v x] (x < 16) (.ldF (BitVec.ofNat 4 x)) ∧
    AssemblesWhen .LD [.b, .v x] (x < 16) (.ldB (BitVec.ofNat 4 x)) ∧
    AssemblesWhen .LD [.memI, .v x] (x < 16) (.ldMemV (BitVec.ofNat 4 x)) ∧
    AssemblesWhen .LD [.v x, .memI] (x < 16) (.ldVMem (BitVec.ofNat 4 x)) ∧
    AssemblesWhen .SHR [.v x] (x < 16) (.shr (BitVec.ofNat 4 x) 0x0#4) ∧
    AssemblesWhen .SHL [.v x] (x < 16) (.shl (BitVec.ofNat 4 x) 0x0#4)) ∧
  (∀ x n : Nat,
    AssemblesWhen .SE [.v x, .num n] (x < 16 ∧ n < 256) (.seImm (BitVec.ofNat 4 x) (BitVec.ofNat 8 n)) ∧
    AssemblesWhen .SNE [.v x, .num n] (x < 16 ∧ n < 256) (.sneImm (BitVec.ofNat 4 x) (BitVec.ofNat 8 n)) ∧
    AssemblesWhen .LD [.v x, .num n] (x < 16 ∧ n < 256) (.ldImm (BitVec.ofNat 4 x) (BitVec.ofNat 8 n)) ∧
    AssemblesWhen .ADD [.v x, .num n] (x < 16 ∧ n < 256) (.addImm (BitVec.ofNat 4 x) (BitVec.ofNat 8 n)) ∧
    AssemblesWhen .RND [.v x, .num n] (x < 16 ∧ n < 256) (.rnd (BitVec.ofNat 4 x) (BitVec.ofNat 8 n))) ∧
  (∀ x y : Nat,
    AssemblesWhen .SE [.v x, .v y] (x < 16 ∧ y < 16) (.seReg (BitVec.ofNat 4 x) (BitVec.ofNat 4 y)) ∧
    AssemblesWhen .SNE [.v x, .v y] (x < 16 ∧ y < 16) (.sneReg (BitVec.ofNat 4 x) (BitVec.ofNat 4 y)) ∧
    AssemblesWhen .LD [.v x, .v y] (x < 16 ∧ y < 16) (.ldReg (BitVec.ofNat 4 x) (BitVec.ofNat 4 y)) ∧
    AssemblesWhen .OR [.v x, .v y] (x < 16 ∧ y < 16) (.orReg (BitVec.ofNat 4 x) (BitVec.ofNat 4 y)) ∧
    AssemblesWhen .AND [.v x, .v y] (x < 16 ∧ y < 16) (.andReg (BitVec.ofNat 4 x) (BitVec.ofNat 4 y)) ∧
    AssemblesWhen .XOR [.v x, .v y] (x < 16 ∧ y < 16) (.xorReg (BitVec.ofNat 4 x) (BitVec.ofNat 4 y)) ∧
    AssemblesWhen .ADD [.v x, .v y] (x < 16 ∧ y < 16) (.addReg (BitVec.ofNat 4 x) (BitVec.ofNat 4 y)) ∧
    AssemblesWhen .SUB [.v x, .v y] (x < 16 ∧ y < 16) (.sub (BitVec.ofNat 4 x) (BitVec.ofNat 4 y)) ∧
    AssemblesWhen .SUBN [.v x, .v y] (x < 16 ∧ y < 16) (.subn (BitVec.ofNat 4 x) (BitVec.ofNat 4 y)) ∧
    AssemblesWhen .SHR [.v x, .v y] (x < 16 ∧ y < 16) (.shr (BitVec.ofNat 4 x) (BitVec.ofNat 4 y)) ∧
    AssemblesWhen .SHL [.v x, .v y] (x < 16 ∧ y < 16) (.shl (BitVec.ofNat 4 x) (BitVec.ofNat 4 y))) ∧
  (∀ x y n : Nat, AssemblesWhen .DRW [.v x, .v y, .num n] (x < 16 ∧ y < 16 ∧ n < 16)
    (.drw (BitVec.ofNat 4 x) (BitVec.ofNat 4 y) (BitVec.ofNat 4 n))) ∧
  (∀ bs : List Nat, ((∀ b ∈ bs, b < 256) → assembleLine (.db bs) = some (bs.map (BitVec.ofNat 8))) ∧
    ((∃ b ∈ bs, 256 ≤ b) → assembleLine (.db bs) = none))

/-! ### Runs -/

/-- A run answers a next state after any number of cycles, whatever the host supplies on the way: the core never ends it
(R168). R168 says that a run ends, too, when the core faults; that the halted core still answers next states, the same ones
but for what the host writes, is the model's reading of R140 (log entry 1, DEDUCED). -/
def Obligations.RunsNeverEndOnTheirOwn : Prop :=
  ∀ (script : Script) (s : State), ∃ t, AfterCycles script.length script s t

/-- The first cycle whose fetch address is `a` (R168) really fetches there: the cycle before it left PC at `a` and no fault
latched, `a` is even and at most 0xFFE, and after the cycle OPC is the big-endian word of the two bytes that stood at `a`
before it (R34, R50, R75; D9). -/
def Obligations.FirstFetchReadsTheWordAtItsAddress : Prop :=
  ∀ (a : Word) (before : Script) (last : List HostInput) (s u t : State), AfterCycles before.length before s u →
    FirstFetchAt a (before ++ [last]) s t →
    u.flt = none ∧ u.pc = a ∧ a.toNat % 2 = 0 ∧ a.toNat ≤ 0xFFE ∧
      t.opc.toNat = (u.byteAt a.toNat).toNat * 256 + (u.byteAt (a.toNat + 1)).toNat
end

