-- ==== Sys2Proof/Laws/Decode.lean ====
section
/-! SUPPORT. The fields of words built from fields, and the layout in memory. -/

namespace Sys2Proof

/-- Every instruction's operands fit their fields: the operand types see to it. -/
theorem Instr.wellFormed_all (i : Instr) : i.wellFormed = true := by
  cases i <;>
    simp only [Instr.wellFormed, Instr.operands, Slot.fits, Slot.width, List.all_cons, List.all_nil, Bool.and_eq_true,
      and_true] <;>
    and_intros <;> exact decide_eq_true (BitVec.isLt _)

/-- The bits of an appended word, high part on top. -/
theorem extract_high {a b : Nat} (x : BitVec a) (y : BitVec b) : (x ++ y).extractLsb' b a = x := by
  apply BitVec.eq_of_getLsbD_eq
  intro i hi
  simp [BitVec.getLsbD_append, hi]

/-- The bits of an appended word, low part. -/
theorem extract_low {a b : Nat} (x : BitVec a) (y : BitVec b) : (x ++ y).extractLsb' 0 b = y := by
  apply BitVec.eq_of_getLsbD_eq
  intro i hi
  simp [BitVec.getLsbD_append, hi]

/-- A field above the low part lies in the high part. -/
theorem extract_above {a b : Nat} (x : BitVec a) (y : BitVec b) (k n : Nat) :
    (x ++ y).extractLsb' (b + k) n = x.extractLsb' k n := by
  apply BitVec.eq_of_getLsbD_eq
  intro i hi
  simp only [BitVec.getLsbD_extractLsb', BitVec.getLsbD_append, hi, decide_true, Bool.true_and]
  rw [if_neg (by omega)]
  congr 1; omega

/-- A word laid out in memory and read back big-endian is the word (R50). -/
theorem wordOfBytes_bytesOfWord (w : Word) : wordOfBytes (w.extractLsb' 8 8) (w.extractLsb' 0 8) = w := by
  apply BitVec.eq_of_getLsbD_eq
  intro i hi
  simp only [wordOfBytes, BitVec.getLsbD_append, BitVec.getLsbD_extractLsb']
  by_cases h : i < 8
  · simp [h]
  · have h' : i - 8 < 8 := by omega
    simp [h, h', Nat.add_sub_cancel' (Nat.not_lt.mp h)]

/-- The byte decoder reads the word decoder's instruction from the two bytes of a word. -/
theorem decodeBytes_bytesOfWord (w : Word) (rest : List Byte) :
    decodeBytes (bytesOfWord w ++ rest) =
      match decode w with
      | some i => .ok (i, rest)
      | none => .error (.unknownOpcode w) := by
  cases hd : decode w <;>
    simp [bytesOfWord, decodeBytes, wordOfBytes_bytesOfWord, hd]

/-- The fields of a word put together from four nibbles (R10, R15). -/
theorem fields_nibbles (a b c d : Nibble) :
    fieldFam (a ++ b ++ c ++ d) = a ∧ fieldX (a ++ b ++ c ++ d) = b ∧ fieldY (a ++ b ++ c ++ d) = c ∧
      fieldN (a ++ b ++ c ++ d) = d :=
  ⟨(extract_above (a ++ b ++ c) d 8 4).trans ((extract_above (a ++ b) c 4 4).trans (extract_high a b)),
   (extract_above (a ++ b ++ c) d 4 4).trans ((extract_above (a ++ b) c 0 4).trans (extract_low a b)),
   (extract_above (a ++ b ++ c) d 0 4).trans (extract_low (a ++ b) c),
   extract_low (a ++ b ++ c) d⟩

/-- The fields of a word with a byte operand. -/
theorem fields_byte (a b : Nibble) (n : Byte) :
    fieldFam (a ++ b ++ n) = a ∧ fieldX (a ++ b ++ n) = b ∧ fieldNN (a ++ b ++ n) = n :=
  ⟨(extract_above (a ++ b) n 4 4).trans (extract_high a b), (extract_above (a ++ b) n 0 4).trans (extract_low a b),
   extract_low (a ++ b) n⟩

/-- The low nibbles of a word with a byte operand are the nibbles of the byte. -/
theorem fields_byte_low (a b : Nibble) (n : Byte) :
    fieldY (a ++ b ++ n) = n.extractLsb' 4 4 ∧ fieldN (a ++ b ++ n) = n.extractLsb' 0 4 := by
  have low : ∀ k, k + 4 ≤ 8 → ((a ++ b) ++ n).extractLsb' k 4 = n.extractLsb' k 4 := by
    intro k hk
    apply BitVec.eq_of_getLsbD_eq
    intro i hi
    simp only [BitVec.getLsbD_extractLsb', BitVec.getLsbD_append, hi, decide_true, Bool.true_and]
    rw [if_pos (by omega)]
  exact ⟨low 4 (by omega), low 0 (by omega)⟩

/-- A word is its four nibbles. -/
theorem word_of_fields (w : Word) : (fieldFam w ++ fieldX w ++ fieldY w ++ fieldN w : BitVec (4 + 4 + 4 + 4)) = w := by
  refine BitVec.eq_of_getLsbD_eq (w := 16) fun i hi => ?_
  simp only [BitVec.getLsbD_append, fieldFam, fieldX, fieldY, fieldN, BitVec.getLsbD_extractLsb']
  split_ifs <;> (rw [decide_eq_true (by omega), Bool.true_and]; congr 1; omega)

/-- Words with the same nibbles are the same word. -/
theorem word_ext {a b : Word} (h1 : fieldFam a = fieldFam b) (h2 : fieldX a = fieldX b) (h3 : fieldY a = fieldY b)
    (h4 : fieldN a = fieldN b) : a = b := by
  rw [← word_of_fields a, ← word_of_fields b, h1, h2, h3, h4]

/-- The fields of a masked word. -/
theorem fields_and (w m : Word) :
    fieldFam (w &&& m) = fieldFam w &&& fieldFam m ∧ fieldX (w &&& m) = fieldX w &&& fieldX m ∧
      fieldY (w &&& m) = fieldY w &&& fieldY m ∧ fieldN (w &&& m) = fieldN w &&& fieldN m :=
  ⟨BitVec.extractLsb'_and, BitVec.extractLsb'_and, BitVec.extractLsb'_and, BitVec.extractLsb'_and⟩

/-- A nibble under the full mask and under the empty one. -/
theorem nibble_masks (a : Nibble) : a &&& 0xF#4 = a ∧ a &&& 0x0#4 = 0x0#4 := by
  revert a; decide

/-- Masking with 0xF000 tests the family. -/
theorem mask_family (w p : Word) (hp : fieldX p = 0#4 ∧ fieldY p = 0#4 ∧ fieldN p = 0#4) :
    w &&& 0xF000#16 = p ↔ fieldFam w = fieldFam p := by
  obtain ⟨e1, e2, e3, e4⟩ := fields_and w 0xF000#16
  constructor
  · rintro rfl; rw [e1]; exact (nibble_masks _).1.symm
  · intro h
    apply word_ext
    · rw [e1, ← h]; exact (nibble_masks _).1
    · rw [e2, hp.1]; exact (nibble_masks _).2
    · rw [e3, hp.2.1]; exact (nibble_masks _).2
    · rw [e4, hp.2.2]; exact (nibble_masks _).2

/-- Masking with 0xF00F tests the family and the low nibble. -/
theorem mask_family_low (w p : Word) (hp : fieldX p = 0#4 ∧ fieldY p = 0#4) :
    w &&& 0xF00F#16 = p ↔ fieldFam w = fieldFam p ∧ fieldN w = fieldN p := by
  obtain ⟨e1, e2, e3, e4⟩ := fields_and w 0xF00F#16
  constructor
  · rintro rfl; rw [e1, e4]; exact ⟨(nibble_masks _).1.symm, (nibble_masks _).1.symm⟩
  · rintro ⟨h, g⟩
    apply word_ext
    · rw [e1, ← h]; exact (nibble_masks _).1
    · rw [e2, hp.1]; exact (nibble_masks _).2
    · rw [e3, hp.2]; exact (nibble_masks _).2
    · rw [e4, ← g]; exact (nibble_masks _).1

/-- Masking with 0xF0FF tests the family and the two low nibbles. -/
theorem mask_family_byte (w p : Word) (hp : fieldX p = 0#4) :
    w &&& 0xF0FF#16 = p ↔ fieldFam w = fieldFam p ∧ fieldY w = fieldY p ∧ fieldN w = fieldN p := by
  obtain ⟨e1, e2, e3, e4⟩ := fields_and w 0xF0FF#16
  constructor
  · rintro rfl; rw [e1, e3, e4]
    exact ⟨(nibble_masks _).1.symm, (nibble_masks _).1.symm, (nibble_masks _).1.symm⟩
  · rintro ⟨h, g, k⟩
    apply word_ext
    · rw [e1, ← h]; exact (nibble_masks _).1
    · rw [e2, hp]; exact (nibble_masks _).2
    · rw [e3, ← g]; exact (nibble_masks _).1
    · rw [e4, ← k]; exact (nibble_masks _).1

/-- The fields of a word with an address operand. -/
theorem fields_addr (a : Nibble) (n : Addr) : fieldFam (a ++ n) = a ∧ fieldNNN (a ++ n) = n :=
  ⟨extract_high a n, extract_low a n⟩

end Sys2Proof
end

