-- ==== Sys2Proof/Laws/State.lean ====
section
/-! SUPPORT. What each field reads after each named update: one lemma per field per update, all by definition. -/

namespace Sys2Proof.Machine

/-! ### `setReg` -/

@[simp] theorem State.setReg_mem (s : State) (x : Nibble) (b : Byte) : (s.setReg x b).mem = s.mem := rfl
@[simp] theorem State.setReg_v (s : State) (x : Nibble) (b : Byte) : (s.setReg x b).v = s.v.set x.toNat b x.isLt := rfl
@[simp] theorem State.setReg_i (s : State) (x : Nibble) (b : Byte) : (s.setReg x b).i = s.i := rfl
@[simp] theorem State.setReg_pc (s : State) (x : Nibble) (b : Byte) : (s.setReg x b).pc = s.pc := rfl
@[simp] theorem State.setReg_stack (s : State) (x : Nibble) (b : Byte) : (s.setReg x b).stack = s.stack := rfl
@[simp] theorem State.setReg_sp (s : State) (x : Nibble) (b : Byte) : (s.setReg x b).sp = s.sp := rfl
@[simp] theorem State.setReg_dt (s : State) (x : Nibble) (b : Byte) : (s.setReg x b).dt = s.dt := rfl
@[simp] theorem State.setReg_fb (s : State) (x : Nibble) (b : Byte) : (s.setReg x b).fb = s.fb := rfl
@[simp] theorem State.setReg_key (s : State) (x : Nibble) (b : Byte) : (s.setReg x b).key = s.key := rfl
@[simp] theorem State.setReg_df (s : State) (x : Nibble) (b : Byte) : (s.setReg x b).df = s.df := rfl
@[simp] theorem State.setReg_opc (s : State) (x : Nibble) (b : Byte) : (s.setReg x b).opc = s.opc := rfl
@[simp] theorem State.setReg_flt (s : State) (x : Nibble) (b : Byte) : (s.setReg x b).flt = s.flt := rfl
@[simp] theorem State.setReg_loadError (s : State) (x : Nibble) (b : Byte) : (s.setReg x b).loadError = s.loadError := rfl
@[simp] theorem State.setReg_diags (s : State) (x : Nibble) (b : Byte) : (s.setReg x b).diags = s.diags := rfl
@[simp] theorem State.setReg_randDraws (s : State) (x : Nibble) (b : Byte) : (s.setReg x b).randDraws = s.randDraws := rfl
@[simp] theorem State.setReg_byteAt (s : State) (x : Nibble) (b : Byte) (a : Nat) : (s.setReg x b).byteAt a = s.byteAt a := rfl
@[simp] theorem State.setReg_pixel (s : State) (x : Nibble) (b : Byte) (p : Fin 2048) : (s.setReg x b).pixel p = s.pixel p := rfl
@[simp] theorem State.setReg_keyDown (s : State) (x : Nibble) (b : Byte) (k : Nat) : (s.setReg x b).keyDown k = s.keyDown k := rfl
@[simp] theorem State.setReg_lowestKey (s : State) (x : Nibble) (b : Byte) : (s.setReg x b).lowestKey = s.lowestKey := rfl
@[simp] theorem State.setReg_pc0 (s : State) (x : Nibble) (b : Byte) : (s.setReg x b).pc0 = s.pc0 := rfl

/-! ### `storeBytes` -/

@[simp] theorem State.storeBytes_mem (s : State) (a : Nat) (bs : List Byte) : (s.storeBytes a bs).mem = Memory.writeBytes s.mem a bs := rfl
@[simp] theorem State.storeBytes_v (s : State) (a : Nat) (bs : List Byte) : (s.storeBytes a bs).v = s.v := rfl
@[simp] theorem State.storeBytes_i (s : State) (a : Nat) (bs : List Byte) : (s.storeBytes a bs).i = s.i := rfl
@[simp] theorem State.storeBytes_pc (s : State) (a : Nat) (bs : List Byte) : (s.storeBytes a bs).pc = s.pc := rfl
@[simp] theorem State.storeBytes_stack (s : State) (a : Nat) (bs : List Byte) : (s.storeBytes a bs).stack = s.stack := rfl
@[simp] theorem State.storeBytes_sp (s : State) (a : Nat) (bs : List Byte) : (s.storeBytes a bs).sp = s.sp := rfl
@[simp] theorem State.storeBytes_dt (s : State) (a : Nat) (bs : List Byte) : (s.storeBytes a bs).dt = s.dt := rfl
@[simp] theorem State.storeBytes_fb (s : State) (a : Nat) (bs : List Byte) : (s.storeBytes a bs).fb = s.fb := rfl
@[simp] theorem State.storeBytes_key (s : State) (a : Nat) (bs : List Byte) : (s.storeBytes a bs).key = s.key := rfl
@[simp] theorem State.storeBytes_df (s : State) (a : Nat) (bs : List Byte) : (s.storeBytes a bs).df = s.df := rfl
@[simp] theorem State.storeBytes_opc (s : State) (a : Nat) (bs : List Byte) : (s.storeBytes a bs).opc = s.opc := rfl
@[simp] theorem State.storeBytes_flt (s : State) (a : Nat) (bs : List Byte) : (s.storeBytes a bs).flt = s.flt := rfl
@[simp] theorem State.storeBytes_loadError (s : State) (a : Nat) (bs : List Byte) : (s.storeBytes a bs).loadError = s.loadError := rfl
@[simp] theorem State.storeBytes_diags (s : State) (a : Nat) (bs : List Byte) : (s.storeBytes a bs).diags = s.diags := rfl
@[simp] theorem State.storeBytes_randDraws (s : State) (a : Nat) (bs : List Byte) : (s.storeBytes a bs).randDraws = s.randDraws := rfl
@[simp] theorem State.storeBytes_reg (s : State) (a : Nat) (bs : List Byte) (r : Nibble) : (s.storeBytes a bs).reg r = s.reg r := rfl
@[simp] theorem State.storeBytes_vf (s : State) (a : Nat) (bs : List Byte) : (s.storeBytes a bs).vf = s.vf := rfl
@[simp] theorem State.storeBytes_pixel (s : State) (a : Nat) (bs : List Byte) (p : Fin 2048) : (s.storeBytes a bs).pixel p = s.pixel p := rfl
@[simp] theorem State.storeBytes_keyDown (s : State) (a : Nat) (bs : List Byte) (k : Nat) : (s.storeBytes a bs).keyDown k = s.keyDown k := rfl
@[simp] theorem State.storeBytes_lowestKey (s : State) (a : Nat) (bs : List Byte) : (s.storeBytes a bs).lowestKey = s.lowestKey := rfl
@[simp] theorem State.storeBytes_pc0 (s : State) (a : Nat) (bs : List Byte) : (s.storeBytes a bs).pc0 = s.pc0 := rfl

/-! ### `setI` -/

@[simp] theorem State.setI_mem (s : State) (w : Word) : (s.setI w).mem = s.mem := rfl
@[simp] theorem State.setI_v (s : State) (w : Word) : (s.setI w).v = s.v := rfl
@[simp] theorem State.setI_i (s : State) (w : Word) : (s.setI w).i = w := rfl
@[simp] theorem State.setI_pc (s : State) (w : Word) : (s.setI w).pc = s.pc := rfl
@[simp] theorem State.setI_stack (s : State) (w : Word) : (s.setI w).stack = s.stack := rfl
@[simp] theorem State.setI_sp (s : State) (w : Word) : (s.setI w).sp = s.sp := rfl
@[simp] theorem State.setI_dt (s : State) (w : Word) : (s.setI w).dt = s.dt := rfl
@[simp] theorem State.setI_fb (s : State) (w : Word) : (s.setI w).fb = s.fb := rfl
@[simp] theorem State.setI_key (s : State) (w : Word) : (s.setI w).key = s.key := rfl
@[simp] theorem State.setI_df (s : State) (w : Word) : (s.setI w).df = s.df := rfl
@[simp] theorem State.setI_opc (s : State) (w : Word) : (s.setI w).opc = s.opc := rfl
@[simp] theorem State.setI_flt (s : State) (w : Word) : (s.setI w).flt = s.flt := rfl
@[simp] theorem State.setI_loadError (s : State) (w : Word) : (s.setI w).loadError = s.loadError := rfl
@[simp] theorem State.setI_diags (s : State) (w : Word) : (s.setI w).diags = s.diags := rfl
@[simp] theorem State.setI_randDraws (s : State) (w : Word) : (s.setI w).randDraws = s.randDraws := rfl
@[simp] theorem State.setI_reg (s : State) (w : Word) (r : Nibble) : (s.setI w).reg r = s.reg r := rfl
@[simp] theorem State.setI_vf (s : State) (w : Word) : (s.setI w).vf = s.vf := rfl
@[simp] theorem State.setI_byteAt (s : State) (w : Word) (a : Nat) : (s.setI w).byteAt a = s.byteAt a := rfl
@[simp] theorem State.setI_pixel (s : State) (w : Word) (p : Fin 2048) : (s.setI w).pixel p = s.pixel p := rfl
@[simp] theorem State.setI_keyDown (s : State) (w : Word) (k : Nat) : (s.setI w).keyDown k = s.keyDown k := rfl
@[simp] theorem State.setI_lowestKey (s : State) (w : Word) : (s.setI w).lowestKey = s.lowestKey := rfl
@[simp] theorem State.setI_pc0 (s : State) (w : Word) : (s.setI w).pc0 = s.pc0 := rfl

/-! ### `setPc` -/

@[simp] theorem State.setPc_mem (s : State) (w : Word) : (s.setPc w).mem = s.mem := rfl
@[simp] theorem State.setPc_v (s : State) (w : Word) : (s.setPc w).v = s.v := rfl
@[simp] theorem State.setPc_i (s : State) (w : Word) : (s.setPc w).i = s.i := rfl
@[simp] theorem State.setPc_pc (s : State) (w : Word) : (s.setPc w).pc = w := rfl
@[simp] theorem State.setPc_stack (s : State) (w : Word) : (s.setPc w).stack = s.stack := rfl
@[simp] theorem State.setPc_sp (s : State) (w : Word) : (s.setPc w).sp = s.sp := rfl
@[simp] theorem State.setPc_dt (s : State) (w : Word) : (s.setPc w).dt = s.dt := rfl
@[simp] theorem State.setPc_fb (s : State) (w : Word) : (s.setPc w).fb = s.fb := rfl
@[simp] theorem State.setPc_key (s : State) (w : Word) : (s.setPc w).key = s.key := rfl
@[simp] theorem State.setPc_df (s : State) (w : Word) : (s.setPc w).df = s.df := rfl
@[simp] theorem State.setPc_opc (s : State) (w : Word) : (s.setPc w).opc = s.opc := rfl
@[simp] theorem State.setPc_flt (s : State) (w : Word) : (s.setPc w).flt = s.flt := rfl
@[simp] theorem State.setPc_loadError (s : State) (w : Word) : (s.setPc w).loadError = s.loadError := rfl
@[simp] theorem State.setPc_diags (s : State) (w : Word) : (s.setPc w).diags = s.diags := rfl
@[simp] theorem State.setPc_randDraws (s : State) (w : Word) : (s.setPc w).randDraws = s.randDraws := rfl
@[simp] theorem State.setPc_reg (s : State) (w : Word) (r : Nibble) : (s.setPc w).reg r = s.reg r := rfl
@[simp] theorem State.setPc_vf (s : State) (w : Word) : (s.setPc w).vf = s.vf := rfl
@[simp] theorem State.setPc_byteAt (s : State) (w : Word) (a : Nat) : (s.setPc w).byteAt a = s.byteAt a := rfl
@[simp] theorem State.setPc_pixel (s : State) (w : Word) (p : Fin 2048) : (s.setPc w).pixel p = s.pixel p := rfl
@[simp] theorem State.setPc_keyDown (s : State) (w : Word) (k : Nat) : (s.setPc w).keyDown k = s.keyDown k := rfl
@[simp] theorem State.setPc_lowestKey (s : State) (w : Word) : (s.setPc w).lowestKey = s.lowestKey := rfl

/-! ### `setDt` -/

@[simp] theorem State.setDt_mem (s : State) (b : Byte) : (s.setDt b).mem = s.mem := rfl
@[simp] theorem State.setDt_v (s : State) (b : Byte) : (s.setDt b).v = s.v := rfl
@[simp] theorem State.setDt_i (s : State) (b : Byte) : (s.setDt b).i = s.i := rfl
@[simp] theorem State.setDt_pc (s : State) (b : Byte) : (s.setDt b).pc = s.pc := rfl
@[simp] theorem State.setDt_stack (s : State) (b : Byte) : (s.setDt b).stack = s.stack := rfl
@[simp] theorem State.setDt_sp (s : State) (b : Byte) : (s.setDt b).sp = s.sp := rfl
@[simp] theorem State.setDt_dt (s : State) (b : Byte) : (s.setDt b).dt = b := rfl
@[simp] theorem State.setDt_fb (s : State) (b : Byte) : (s.setDt b).fb = s.fb := rfl
@[simp] theorem State.setDt_key (s : State) (b : Byte) : (s.setDt b).key = s.key := rfl
@[simp] theorem State.setDt_df (s : State) (b : Byte) : (s.setDt b).df = s.df := rfl
@[simp] theorem State.setDt_opc (s : State) (b : Byte) : (s.setDt b).opc = s.opc := rfl
@[simp] theorem State.setDt_flt (s : State) (b : Byte) : (s.setDt b).flt = s.flt := rfl
@[simp] theorem State.setDt_loadError (s : State) (b : Byte) : (s.setDt b).loadError = s.loadError := rfl
@[simp] theorem State.setDt_diags (s : State) (b : Byte) : (s.setDt b).diags = s.diags := rfl
@[simp] theorem State.setDt_randDraws (s : State) (b : Byte) : (s.setDt b).randDraws = s.randDraws := rfl
@[simp] theorem State.setDt_reg (s : State) (b : Byte) (r : Nibble) : (s.setDt b).reg r = s.reg r := rfl
@[simp] theorem State.setDt_vf (s : State) (b : Byte) : (s.setDt b).vf = s.vf := rfl
@[simp] theorem State.setDt_byteAt (s : State) (b : Byte) (a : Nat) : (s.setDt b).byteAt a = s.byteAt a := rfl
@[simp] theorem State.setDt_pixel (s : State) (b : Byte) (p : Fin 2048) : (s.setDt b).pixel p = s.pixel p := rfl
@[simp] theorem State.setDt_keyDown (s : State) (b : Byte) (k : Nat) : (s.setDt b).keyDown k = s.keyDown k := rfl
@[simp] theorem State.setDt_lowestKey (s : State) (b : Byte) : (s.setDt b).lowestKey = s.lowestKey := rfl
@[simp] theorem State.setDt_pc0 (s : State) (b : Byte) : (s.setDt b).pc0 = s.pc0 := rfl

/-! ### `show` -/

@[simp] theorem State.show_mem (s : State) (f : Vector Byte 2048) : (s.show f).mem = s.mem := rfl
@[simp] theorem State.show_v (s : State) (f : Vector Byte 2048) : (s.show f).v = s.v := rfl
@[simp] theorem State.show_i (s : State) (f : Vector Byte 2048) : (s.show f).i = s.i := rfl
@[simp] theorem State.show_pc (s : State) (f : Vector Byte 2048) : (s.show f).pc = s.pc := rfl
@[simp] theorem State.show_stack (s : State) (f : Vector Byte 2048) : (s.show f).stack = s.stack := rfl
@[simp] theorem State.show_sp (s : State) (f : Vector Byte 2048) : (s.show f).sp = s.sp := rfl
@[simp] theorem State.show_dt (s : State) (f : Vector Byte 2048) : (s.show f).dt = s.dt := rfl
@[simp] theorem State.show_fb (s : State) (f : Vector Byte 2048) : (s.show f).fb = f := rfl
@[simp] theorem State.show_key (s : State) (f : Vector Byte 2048) : (s.show f).key = s.key := rfl
@[simp] theorem State.show_df (s : State) (f : Vector Byte 2048) : (s.show f).df = true := rfl
@[simp] theorem State.show_opc (s : State) (f : Vector Byte 2048) : (s.show f).opc = s.opc := rfl
@[simp] theorem State.show_flt (s : State) (f : Vector Byte 2048) : (s.show f).flt = s.flt := rfl
@[simp] theorem State.show_loadError (s : State) (f : Vector Byte 2048) : (s.show f).loadError = s.loadError := rfl
@[simp] theorem State.show_diags (s : State) (f : Vector Byte 2048) : (s.show f).diags = s.diags := rfl
@[simp] theorem State.show_randDraws (s : State) (f : Vector Byte 2048) : (s.show f).randDraws = s.randDraws := rfl
@[simp] theorem State.show_reg (s : State) (f : Vector Byte 2048) (r : Nibble) : (s.show f).reg r = s.reg r := rfl
@[simp] theorem State.show_vf (s : State) (f : Vector Byte 2048) : (s.show f).vf = s.vf := rfl
@[simp] theorem State.show_byteAt (s : State) (f : Vector Byte 2048) (a : Nat) : (s.show f).byteAt a = s.byteAt a := rfl
@[simp] theorem State.show_keyDown (s : State) (f : Vector Byte 2048) (k : Nat) : (s.show f).keyDown k = s.keyDown k := rfl
@[simp] theorem State.show_lowestKey (s : State) (f : Vector Byte 2048) : (s.show f).lowestKey = s.lowestKey := rfl
@[simp] theorem State.show_pc0 (s : State) (f : Vector Byte 2048) : (s.show f).pc0 = s.pc0 := rfl

/-! ### `addDiag` -/

@[simp] theorem State.addDiag_mem (s : State) (d : Diag) : (s.addDiag d).mem = s.mem := rfl
@[simp] theorem State.addDiag_v (s : State) (d : Diag) : (s.addDiag d).v = s.v := rfl
@[simp] theorem State.addDiag_i (s : State) (d : Diag) : (s.addDiag d).i = s.i := rfl
@[simp] theorem State.addDiag_pc (s : State) (d : Diag) : (s.addDiag d).pc = s.pc := rfl
@[simp] theorem State.addDiag_stack (s : State) (d : Diag) : (s.addDiag d).stack = s.stack := rfl
@[simp] theorem State.addDiag_sp (s : State) (d : Diag) : (s.addDiag d).sp = s.sp := rfl
@[simp] theorem State.addDiag_dt (s : State) (d : Diag) : (s.addDiag d).dt = s.dt := rfl
@[simp] theorem State.addDiag_fb (s : State) (d : Diag) : (s.addDiag d).fb = s.fb := rfl
@[simp] theorem State.addDiag_key (s : State) (d : Diag) : (s.addDiag d).key = s.key := rfl
@[simp] theorem State.addDiag_df (s : State) (d : Diag) : (s.addDiag d).df = s.df := rfl
@[simp] theorem State.addDiag_opc (s : State) (d : Diag) : (s.addDiag d).opc = s.opc := rfl
@[simp] theorem State.addDiag_flt (s : State) (d : Diag) : (s.addDiag d).flt = s.flt := rfl
@[simp] theorem State.addDiag_loadError (s : State) (d : Diag) : (s.addDiag d).loadError = s.loadError := rfl
@[simp] theorem State.addDiag_diags (s : State) (d : Diag) : (s.addDiag d).diags = s.diags ++ [d] := rfl
@[simp] theorem State.addDiag_randDraws (s : State) (d : Diag) : (s.addDiag d).randDraws = s.randDraws := rfl
@[simp] theorem State.addDiag_reg (s : State) (d : Diag) (r : Nibble) : (s.addDiag d).reg r = s.reg r := rfl
@[simp] theorem State.addDiag_vf (s : State) (d : Diag) : (s.addDiag d).vf = s.vf := rfl
@[simp] theorem State.addDiag_byteAt (s : State) (d : Diag) (a : Nat) : (s.addDiag d).byteAt a = s.byteAt a := rfl
@[simp] theorem State.addDiag_pixel (s : State) (d : Diag) (p : Fin 2048) : (s.addDiag d).pixel p = s.pixel p := rfl
@[simp] theorem State.addDiag_keyDown (s : State) (d : Diag) (k : Nat) : (s.addDiag d).keyDown k = s.keyDown k := rfl
@[simp] theorem State.addDiag_lowestKey (s : State) (d : Diag) : (s.addDiag d).lowestKey = s.lowestKey := rfl
@[simp] theorem State.addDiag_pc0 (s : State) (d : Diag) : (s.addDiag d).pc0 = s.pc0 := rfl

/-! ### `takeFault` -/

@[simp] theorem State.takeFault_mem (s : State) (at0 : Word) (f : Fault) (info : Nat) : (s.takeFault at0 f info).mem = s.mem := rfl
@[simp] theorem State.takeFault_v (s : State) (at0 : Word) (f : Fault) (info : Nat) : (s.takeFault at0 f info).v = s.v := rfl
@[simp] theorem State.takeFault_i (s : State) (at0 : Word) (f : Fault) (info : Nat) : (s.takeFault at0 f info).i = s.i := rfl
@[simp] theorem State.takeFault_pc (s : State) (at0 : Word) (f : Fault) (info : Nat) : (s.takeFault at0 f info).pc = at0 := rfl
@[simp] theorem State.takeFault_stack (s : State) (at0 : Word) (f : Fault) (info : Nat) : (s.takeFault at0 f info).stack = s.stack := rfl
@[simp] theorem State.takeFault_sp (s : State) (at0 : Word) (f : Fault) (info : Nat) : (s.takeFault at0 f info).sp = s.sp := rfl
@[simp] theorem State.takeFault_dt (s : State) (at0 : Word) (f : Fault) (info : Nat) : (s.takeFault at0 f info).dt = s.dt := rfl
@[simp] theorem State.takeFault_fb (s : State) (at0 : Word) (f : Fault) (info : Nat) : (s.takeFault at0 f info).fb = s.fb := rfl
@[simp] theorem State.takeFault_key (s : State) (at0 : Word) (f : Fault) (info : Nat) : (s.takeFault at0 f info).key = s.key := rfl
@[simp] theorem State.takeFault_df (s : State) (at0 : Word) (f : Fault) (info : Nat) : (s.takeFault at0 f info).df = s.df := rfl
@[simp] theorem State.takeFault_opc (s : State) (at0 : Word) (f : Fault) (info : Nat) : (s.takeFault at0 f info).opc = s.opc := rfl
@[simp] theorem State.takeFault_flt (s : State) (at0 : Word) (f : Fault) (info : Nat) : (s.takeFault at0 f info).flt = some ⟨f, info⟩ := rfl
@[simp] theorem State.takeFault_loadError (s : State) (at0 : Word) (f : Fault) (info : Nat) : (s.takeFault at0 f info).loadError = s.loadError := rfl
@[simp] theorem State.takeFault_diags (s : State) (at0 : Word) (f : Fault) (info : Nat) : (s.takeFault at0 f info).diags = s.diags := rfl
@[simp] theorem State.takeFault_randDraws (s : State) (at0 : Word) (f : Fault) (info : Nat) : (s.takeFault at0 f info).randDraws = s.randDraws := rfl
@[simp] theorem State.takeFault_reg (s : State) (at0 : Word) (f : Fault) (info : Nat) (r : Nibble) : (s.takeFault at0 f info).reg r = s.reg r := rfl
@[simp] theorem State.takeFault_vf (s : State) (at0 : Word) (f : Fault) (info : Nat) : (s.takeFault at0 f info).vf = s.vf := rfl
@[simp] theorem State.takeFault_byteAt (s : State) (at0 : Word) (f : Fault) (info : Nat) (a : Nat) : (s.takeFault at0 f info).byteAt a = s.byteAt a := rfl
@[simp] theorem State.takeFault_pixel (s : State) (at0 : Word) (f : Fault) (info : Nat) (p : Fin 2048) : (s.takeFault at0 f info).pixel p = s.pixel p := rfl
@[simp] theorem State.takeFault_keyDown (s : State) (at0 : Word) (f : Fault) (info : Nat) (k : Nat) : (s.takeFault at0 f info).keyDown k = s.keyDown k := rfl
@[simp] theorem State.takeFault_lowestKey (s : State) (at0 : Word) (f : Fault) (info : Nat) : (s.takeFault at0 f info).lowestKey = s.lowestKey := rfl

/-! ### `advance` -/

@[simp] theorem State.advance_mem (s : State) (w : Word) : (s.advance w).mem = s.mem := rfl
@[simp] theorem State.advance_v (s : State) (w : Word) : (s.advance w).v = s.v := rfl
@[simp] theorem State.advance_i (s : State) (w : Word) : (s.advance w).i = s.i := rfl
@[simp] theorem State.advance_pc (s : State) (w : Word) : (s.advance w).pc = s.pc + 2#16 := rfl
@[simp] theorem State.advance_stack (s : State) (w : Word) : (s.advance w).stack = s.stack := rfl
@[simp] theorem State.advance_sp (s : State) (w : Word) : (s.advance w).sp = s.sp := rfl
@[simp] theorem State.advance_dt (s : State) (w : Word) : (s.advance w).dt = s.dt := rfl
@[simp] theorem State.advance_fb (s : State) (w : Word) : (s.advance w).fb = s.fb := rfl
@[simp] theorem State.advance_key (s : State) (w : Word) : (s.advance w).key = s.key := rfl
@[simp] theorem State.advance_df (s : State) (w : Word) : (s.advance w).df = s.df := rfl
@[simp] theorem State.advance_opc (s : State) (w : Word) : (s.advance w).opc = w := rfl
@[simp] theorem State.advance_flt (s : State) (w : Word) : (s.advance w).flt = s.flt := rfl
@[simp] theorem State.advance_loadError (s : State) (w : Word) : (s.advance w).loadError = s.loadError := rfl
@[simp] theorem State.advance_diags (s : State) (w : Word) : (s.advance w).diags = s.diags := rfl
@[simp] theorem State.advance_randDraws (s : State) (w : Word) : (s.advance w).randDraws = s.randDraws := rfl
@[simp] theorem State.advance_reg (s : State) (w : Word) (r : Nibble) : (s.advance w).reg r = s.reg r := rfl
@[simp] theorem State.advance_vf (s : State) (w : Word) : (s.advance w).vf = s.vf := rfl
@[simp] theorem State.advance_byteAt (s : State) (w : Word) (a : Nat) : (s.advance w).byteAt a = s.byteAt a := rfl
@[simp] theorem State.advance_pixel (s : State) (w : Word) (p : Fin 2048) : (s.advance w).pixel p = s.pixel p := rfl
@[simp] theorem State.advance_keyDown (s : State) (w : Word) (k : Nat) : (s.advance w).keyDown k = s.keyDown k := rfl
@[simp] theorem State.advance_lowestKey (s : State) (w : Word) : (s.advance w).lowestKey = s.lowestKey := rfl

/-! ### `unknownOpcode` -/

@[simp] theorem State.unknownOpcode_mem (s : State) : (s.unknownOpcode).mem = s.mem := rfl
@[simp] theorem State.unknownOpcode_v (s : State) : (s.unknownOpcode).v = s.v := rfl
@[simp] theorem State.unknownOpcode_i (s : State) : (s.unknownOpcode).i = s.i := rfl
@[simp] theorem State.unknownOpcode_pc (s : State) : (s.unknownOpcode).pc = s.pc := rfl
@[simp] theorem State.unknownOpcode_stack (s : State) : (s.unknownOpcode).stack = s.stack := rfl
@[simp] theorem State.unknownOpcode_sp (s : State) : (s.unknownOpcode).sp = s.sp := rfl
@[simp] theorem State.unknownOpcode_dt (s : State) : (s.unknownOpcode).dt = s.dt := rfl
@[simp] theorem State.unknownOpcode_fb (s : State) : (s.unknownOpcode).fb = s.fb := rfl
@[simp] theorem State.unknownOpcode_key (s : State) : (s.unknownOpcode).key = s.key := rfl
@[simp] theorem State.unknownOpcode_df (s : State) : (s.unknownOpcode).df = s.df := rfl
@[simp] theorem State.unknownOpcode_opc (s : State) : (s.unknownOpcode).opc = s.opc := rfl
@[simp] theorem State.unknownOpcode_flt (s : State) : (s.unknownOpcode).flt = s.flt := rfl
@[simp] theorem State.unknownOpcode_loadError (s : State) : (s.unknownOpcode).loadError = s.loadError := rfl
@[simp] theorem State.unknownOpcode_diags (s : State) : (s.unknownOpcode).diags = s.diags ++ [.unknownOpcode s.opc s.pc0] := rfl
@[simp] theorem State.unknownOpcode_randDraws (s : State) : (s.unknownOpcode).randDraws = s.randDraws := rfl
@[simp] theorem State.unknownOpcode_reg (s : State) (r : Nibble) : (s.unknownOpcode).reg r = s.reg r := rfl
@[simp] theorem State.unknownOpcode_vf (s : State) : (s.unknownOpcode).vf = s.vf := rfl
@[simp] theorem State.unknownOpcode_byteAt (s : State) (a : Nat) : (s.unknownOpcode).byteAt a = s.byteAt a := rfl
@[simp] theorem State.unknownOpcode_pixel (s : State) (p : Fin 2048) : (s.unknownOpcode).pixel p = s.pixel p := rfl
@[simp] theorem State.unknownOpcode_keyDown (s : State) (k : Nat) : (s.unknownOpcode).keyDown k = s.keyDown k := rfl
@[simp] theorem State.unknownOpcode_lowestKey (s : State) : (s.unknownOpcode).lowestKey = s.lowestKey := rfl
@[simp] theorem State.unknownOpcode_pc0 (s : State) : (s.unknownOpcode).pc0 = s.pc0 := rfl
/-! ### `random8` -/

@[simp] theorem State.random8_fst (s : State) : s.random8.1 = Config.rand s.randDraws := rfl

@[simp] theorem State.random8_snd_mem (s : State) : s.random8.2.mem = s.mem := rfl
@[simp] theorem State.random8_snd_v (s : State) : s.random8.2.v = s.v := rfl
@[simp] theorem State.random8_snd_i (s : State) : s.random8.2.i = s.i := rfl
@[simp] theorem State.random8_snd_pc (s : State) : s.random8.2.pc = s.pc := rfl
@[simp] theorem State.random8_snd_stack (s : State) : s.random8.2.stack = s.stack := rfl
@[simp] theorem State.random8_snd_sp (s : State) : s.random8.2.sp = s.sp := rfl
@[simp] theorem State.random8_snd_dt (s : State) : s.random8.2.dt = s.dt := rfl
@[simp] theorem State.random8_snd_fb (s : State) : s.random8.2.fb = s.fb := rfl
@[simp] theorem State.random8_snd_key (s : State) : s.random8.2.key = s.key := rfl
@[simp] theorem State.random8_snd_df (s : State) : s.random8.2.df = s.df := rfl
@[simp] theorem State.random8_snd_opc (s : State) : s.random8.2.opc = s.opc := rfl
@[simp] theorem State.random8_snd_flt (s : State) : s.random8.2.flt = s.flt := rfl
@[simp] theorem State.random8_snd_loadError (s : State) : s.random8.2.loadError = s.loadError := rfl
@[simp] theorem State.random8_snd_diags (s : State) : s.random8.2.diags = s.diags := rfl
@[simp] theorem State.random8_snd_randDraws (s : State) : s.random8.2.randDraws = s.randDraws + 1 := rfl
@[simp] theorem State.random8_snd_reg (s : State) (r : Nibble) : s.random8.2.reg r = s.reg r := rfl
@[simp] theorem State.random8_snd_byteAt (s : State) (a : Nat) : s.random8.2.byteAt a = s.byteAt a := rfl
@[simp] theorem State.random8_snd_pixel (s : State) (p : Fin 2048) : s.random8.2.pixel p = s.pixel p := rfl

/-- After the advance, `pc0` is the fetch address (R15). -/
@[simp] theorem State.advance_pc0 (s : State) (w : Word) : (s.advance w).pc0 = s.pc :=
  BitVec.add_sub_cancel s.pc 2#16

end Sys2Proof.Machine
end

