-- ==== Sys2Proof/Laws/Registers.lean ====
section
/-! SUPPORT. The laws of the register file. -/

namespace Sys2Proof.Machine

/-- Reading a register after one register was written. -/
@[simp] theorem State.reg_setReg (s : State) (x y : Nibble) (b : Byte) :
    (s.setReg x b).reg y = if y = x then b else s.reg y := by
  unfold State.reg State.setReg
  rw [Vector.getElem_set]
  by_cases h : y = x
  · simp [h]
  · have : x.toNat ≠ y.toNat := fun e => h (BitVec.eq_of_toNat_eq e.symm)
    simp [h, this]

/-- Reading a register after a result and a flag were written (R16): VF holds the flag. -/
@[simp] theorem State.reg_setRegFlag (s : State) (x y : Nibble) (b : Byte) (c : Bool) :
    (s.setRegFlag x b c).reg y = if y = 0xF#4 then flagByte c else if y = x then b else s.reg y := by
  simp [State.setRegFlag]

/-- VF after a result and a flag were written. -/
@[simp] theorem State.vf_setRegFlag (s : State) (x : Nibble) (b : Byte) (c : Bool) :
    (s.setRegFlag x b c).vf = flagByte c := by
  simp [State.vf]

/-- The registers after a block load: the low `n` come from memory. -/
theorem State.reg_loadRegs (s : State) (n : Nat) (h : n ≤ 16) (r : Nibble) :
    (s.loadRegs n).reg r = if r.toNat < n then s.byteAt (s.i.toNat + r.toNat) else s.reg r := by
  induction n with
  | zero => simp [State.loadRegs]
  | succ n ih =>
    have hr := r.isLt
    rw [State.loadRegs, State.reg_setReg, ih (by omega)]
    have e : r = BitVec.ofNat 4 n ↔ r.toNat = n := by
      constructor
      · intro g; rw [g, BitVec.toNat_ofNat]; omega
      · intro g; apply BitVec.eq_of_toNat_eq; rw [BitVec.toNat_ofNat]; omega
    by_cases g : r.toNat = n
    · simp [e, g]
    · rw [if_neg (by rwa [e])]
      by_cases g' : r.toNat < n
      · rw [if_pos g', if_pos (by omega)]
      · rw [if_neg g', if_neg (by omega)]

/-- A block load changes registers only. -/
theorem State.loadRegs_eq (s : State) (n : Nat) : ∃ v, s.loadRegs n = { s with v := v } := by
  induction n with
  | zero => exact ⟨s.v, rfl⟩
  | succ n ih =>
    obtain ⟨v, hv⟩ := ih
    exact ⟨_, by rw [State.loadRegs, hv]; rfl⟩

@[simp] theorem State.lowRegs_length (s : State) (n : Nat) : (s.lowRegs n).length = n := by
  simp [State.lowRegs]

/-- The bytes a block dump stores. -/
theorem State.lowRegs_getElem? (s : State) (n k : Nat) :
    (s.lowRegs n)[k]? = if k < n then some (s.reg (BitVec.ofNat 4 k)) else none := by
  unfold State.lowRegs
  rw [List.getElem?_map]
  by_cases h : k < n
  · simp [h]
  · simp [h]

end Sys2Proof.Machine
end

