-- ==== Sys2Proof/Laws/Ops.lean ====
section
/-! SUPPORT. What each shared operation can do, said once. -/

namespace Sys2Proof.Machine

/-- A push on a stack that is not full (R29, R99). -/
theorem State.push?_of_lt (s : State) (w : Word) (h : s.sp.val < 16) :
    s.push? w = some { s with stack := s.stack.set s.sp.val w h, sp := ⟨s.sp.val + 1, by omega⟩ } := by
  simp [State.push?, h]

/-- No push on a full stack (R99). -/
theorem State.push?_of_full (s : State) (w : Word) (h : s.sp.val = 16) : s.push? w = none := by
  simp [State.push?, h]

/-- A pop of a stack that is not empty (R29, R97). -/
theorem State.pop?_of_pos (s : State) (h : 0 < s.sp.val) :
    s.pop? = some ({ s with sp := ⟨s.sp.val - 1, by omega⟩ }, s.stack[s.sp.val - 1]'(by omega)) := by
  simp [State.pop?, h]

/-- No pop of an empty stack (R97). -/
theorem State.pop?_of_empty (s : State) (h : s.sp.val = 0) : s.pop? = none := by
  simp [State.pop?, h]

/-- What a fetch can answer (R75). -/
theorem State.fetch_cases (s : State) :
    (s.pc.toNat % 2 = 1 ∧ s.fetch = .error ⟨.fetchMisaligned, s.pc.toNat⟩) ∨
    (s.pc.toNat % 2 = 0 ∧ 0xFFE < s.pc.toNat ∧ s.fetch = .error ⟨.fetchOutOfRange, s.pc.toNat⟩) ∨
    (s.pc.toNat % 2 = 0 ∧ s.pc.toNat ≤ 0xFFE ∧
      s.fetch = .ok (wordOfBytes (s.byteAt s.pc.toNat) (s.byteAt (s.pc.toNat + 1)))) := by
  rcases Nat.mod_two_eq_zero_or_one s.pc.toNat with h | h
  · by_cases g : 0xFFE < s.pc.toNat
    · exact .inr (.inl ⟨h, g, by simp [State.fetch, h, g]⟩)
    · exact .inr (.inr ⟨h, by omega, by simp [State.fetch, h, g]⟩)
  · exact .inl ⟨h, by simp [State.fetch, h]⟩

/-- The smallest bad address of an access to `n` bytes at `I` (R54): none when the access ends inside the memory. -/
theorem State.firstBadAddr_eq_none (s : State) (n : Nat) (h : s.i.toNat + n ≤ 0x1000) : s.firstBadAddr n = none := by
  unfold State.firstBadAddr State.indexAddrs
  rw [List.find?_eq_none]
  intro a ha
  obtain ⟨k, hk, rfl⟩ := List.mem_map.1 ha
  have := List.mem_range.1 hk
  simp only [decide_eq_true_eq]; omega

/-- A zero-length access has no bad address. -/
theorem State.firstBadAddr_zero (s : State) : s.firstBadAddr 0 = none := rfl

/-- The smallest bad address of an access that ends past the memory: `I` itself, or 0x1000 (R54). -/
theorem State.firstBadAddr_eq_some (s : State) (n : Nat) (hn : 0 < n) (h : 0x1000 < s.i.toNat + n) :
    s.firstBadAddr n = some (max s.i.toNat 0x1000) := by
  have key : List.find? ((fun a => decide (0xFFF < a)) ∘ fun k => s.i.toNat + k) (List.range n) =
      some (max s.i.toNat 0x1000 - s.i.toNat) := by
    rw [List.find?_range_eq_some]
    refine ⟨?_, ?_, ?_⟩
    · simp only [Function.comp_apply, decide_eq_true_eq]; omega
    · simp only [List.mem_range]; omega
    · intro j hj
      simp only [Function.comp_apply, Bool.not_eq_eq_eq_not, Bool.not_true, decide_eq_false_iff_not]; omega
  unfold State.firstBadAddr State.indexAddrs
  rw [List.find?_map, key]
  simp only [Option.map_some, Option.some.injEq]; omega

/-- What the address check can do (R54): go on, or fault with the smallest bad address. -/
theorem State.guardIndex_cases (s : State) (n : Nat) (k : Result) :
    ((n = 0 ∨ s.i.toNat + n ≤ 0x1000) ∧ s.guardIndex n k = k) ∨
    (0 < n ∧ 0x1000 < s.i.toNat + n ∧
      s.guardIndex n k = .next (s.takeFault s.pc0 .addressOutOfRange (max s.i.toNat 0x1000))) := by
  rcases Nat.eq_zero_or_pos n with h | h
  · exact .inl ⟨.inl h, by subst h; rfl⟩
  · by_cases g : s.i.toNat + n ≤ 0x1000
    · exact .inl ⟨.inr g, by simp [State.guardIndex, s.firstBadAddr_eq_none n g]⟩
    · exact .inr ⟨h, by omega, by simp [State.guardIndex, s.firstBadAddr_eq_some n h (by omega)]⟩

/-- What the key index check can do (R132). -/
theorem State.guardKey_cases (s : State) (x : Nibble) (k : Result) :
    ((s.reg x).toNat ≤ 15 ∧ s.guardKey x k = k) ∨
    (15 < (s.reg x).toNat ∧
      s.guardKey x k = .next (s.takeFault s.pc0 .keyIndexOutOfRange (s.reg x).toNat)) := by
  by_cases h : 15 < (s.reg x).toNat
  · exact .inr ⟨h, by simp [State.guardKey, h]⟩
  · exact .inl ⟨by omega, by simp [State.guardKey, h]⟩

/-- A skip moves PC by 2 or leaves the state alone (R76). -/
theorem State.skipIf_eq (s : State) (c : Bool) : s.skipIf c = s.setPc (if c then s.pc + 2#16 else s.pc) := by
  cases c <;> rfl

/-- The tick changes the timer alone (R77). -/
theorem State.tick_eq (s : State) :
    s.tick = { s with dt := if s.flt = none ∧ 0 < s.dt.toNat then s.dt - 1#8 else s.dt } := by
  unfold State.tick; split <;> rfl

/-- The scan of the keypad finds the lowest pressed key (R130). -/
theorem State.lowestKey_eq_some (s : State) (k : Nat) :
    s.lowestKey = some k ↔ k < 16 ∧ s.keyDown k = true ∧ ∀ j < k, s.keyDown j = false := by
  unfold State.lowestKey
  rw [List.find?_range_eq_some]
  simp only [List.mem_range, Bool.not_eq_eq_eq_not, Bool.not_true]
  tauto

/-- The scan finds nothing exactly when no key is pressed (R130). -/
theorem State.lowestKey_eq_none (s : State) : s.lowestKey = none ↔ ∀ k < 16, s.keyDown k = false := by
  unfold State.lowestKey
  simp [List.find?_eq_none]

end Sys2Proof.Machine
end

