-- ==== Sys2Proof/Laws/Draw.lean ====
section
/-! SUPPORT. What the sprite unit's shared operations can do. -/

namespace Sys2Proof.Machine

/-- One toggle: the pixel at the index, if the buffer has it, and no other. -/
theorem togglePixel_pixel (c : Canvas) (p : Nat) (q : Nat) (hq : q < 2048) :
    (togglePixel c p).1[q] = if p = q then c.1[q] ^^^ 0xFF#8 else c.1[q] := by
  unfold togglePixel
  split
  · simp only [Vector.getElem_set]
    split
    · subst_vars; rfl
    · rfl
  · rw [if_neg (by omega)]

/-- One toggle: the flag records a fully-set pixel inside the buffer. -/
theorem togglePixel_flag (c : Canvas) (p : Nat) :
    (togglePixel c p).2 = true ↔ c.2 = true ∨ ∃ h : p < 2048, c.1[p] = 0xFF#8 := by
  unfold togglePixel
  split <;> rename_i h
  · simp [h]
  · simp [h]

/-- A run of toggles at distinct indices: each listed pixel is toggled once, every other pixel is left alone. -/
theorem foldl_togglePixel_pixel (l : List Nat) (hl : l.Nodup) (c : Canvas) (q : Nat) (hq : q < 2048) :
    (l.foldl togglePixel c).1[q] = if q ∈ l then c.1[q] ^^^ 0xFF#8 else c.1[q] := by
  induction l generalizing c with
  | nil => simp
  | cons p l ih =>
    rw [List.nodup_cons] at hl
    rw [List.foldl_cons, ih hl.2, togglePixel_pixel]
    by_cases e : p = q
    · subst e; simp [hl.1]
    · simp [e, Ne.symm e]

/-- A run of toggles at distinct indices: the flag records a fully-set pixel of the canvas the run started from. -/
theorem foldl_togglePixel_flag (l : List Nat) (hl : l.Nodup) (c : Canvas) :
    (l.foldl togglePixel c).2 = true ↔ c.2 = true ∨ ∃ p ∈ l, ∃ h : p < 2048, c.1[p] = 0xFF#8 := by
  induction l generalizing c with
  | nil => simp
  | cons p l ih =>
    rw [List.nodup_cons] at hl
    rw [List.foldl_cons, ih hl.2, togglePixel_flag]
    have same : ∀ q ∈ l, ∀ h : q < 2048, (togglePixel c p).1[q] = c.1[q] := by
      intro q hq h
      rw [togglePixel_pixel, if_neg]
      rintro rfl
      exact hl.1 hq
    constructor
    · rintro ((h | h) | ⟨q, hq, h, e⟩)
      · exact .inl h
      · exact .inr ⟨p, by simp, h⟩
      · exact .inr ⟨q, by simp [hq], h, by rw [← same q hq h]; exact e⟩
    · rintro (h | ⟨q, hq, h, e⟩)
      · exact .inl (.inl h)
      · rcases List.mem_cons.1 hq with rfl | hq
        · exact .inl (.inr ⟨h, e⟩)
        · exact .inr ⟨q, hq, h, by rw [same q hq h]; exact e⟩

/-- Which indices a sprite row's columns give. -/
theorem mem_rowColumns (row : Byte) (c : Nat) : c ∈ rowColumns row ↔ c < 8 ∧ row.getLsbD (7 - c) = true := by
  simp [rowColumns]

/-- Which indices a sprite covers: one for each set bit (R91, R92). -/
theorem State.mem_spritePixels (s : State) (x0 y0 n p : Nat) :
    p ∈ s.spritePixels x0 y0 n ↔
      ∃ r < n, ∃ c < 8, (s.byteAt (s.i.toNat + r)).getLsbD (7 - c) = true ∧ p = pixelIndex x0 y0 r c := by
  simp only [State.spritePixels, List.mem_flatMap, List.mem_range, List.mem_map, mem_rowColumns]
  constructor
  · rintro ⟨r, hr, c, ⟨hc, hb⟩, rfl⟩
    exact ⟨r, hr, c, hc, hb, rfl⟩
  · rintro ⟨r, hr, c, hc, hb, rfl⟩
    exact ⟨r, hr, c, ⟨hc, hb⟩, rfl⟩

/-- No two set bits of a sprite share an index: a row is 64 indices after the one before it. -/
theorem State.spritePixels_nodup (s : State) (x0 y0 n : Nat) : (s.spritePixels x0 y0 n).Nodup := by
  unfold State.spritePixels
  rw [List.nodup_flatMap]
  constructor
  · intro r _
    refine List.Nodup.map_on ?_ (List.nodup_range.filter _)
    intro a _ b _ h
    simp only [pixelIndex] at h; omega
  · refine List.Pairwise.imp_of_mem ?_ (List.pairwise_lt_range (n := n))
    intro a b _ _ hab
    rw [Function.onFun, List.disjoint_left]
    rintro p hp hq
    obtain ⟨c, hc, rfl⟩ := List.mem_map.1 hp
    obtain ⟨d, hd, e⟩ := List.mem_map.1 hq
    have := ((mem_rowColumns _ _).1 hc).1
    have := ((mem_rowColumns _ _).1 hd).1
    simp only [pixelIndex] at e; omega

end Sys2Proof.Machine
end

