-- ==== Sys2Proof/Laws/Memory.lean ====
section
/-! SUPPORT. The laws of the memory: read after write, and every operation keeps the canonical form. -/

namespace Sys2Proof.Machine

/-- Filtering out the cells of other addresses does not change what is listed at `a`. -/
theorem Memory.listed_filter (m : List Host.Cell) (p : Host.Cell → Bool) (a : Nat) (h : ∀ b, p (a, b) = true) :
    Memory.listed (m.filter p) a = Memory.listed m a := by
  induction m with
  | nil => rfl
  | cons c m ih =>
    obtain ⟨a', b'⟩ := c
    by_cases e : a' = a
    · subst e; simp [h b', Memory.listed]
    · by_cases hp : p (a', b') = true <;> simp [hp, Memory.listed, e, ih]

/-- No cell of `a` is left when the filter drops them all. -/
theorem Memory.listed_filter_none (m : List Host.Cell) (p : Host.Cell → Bool) (a : Nat) (h : ∀ b, p (a, b) = false) :
    Memory.listed (m.filter p) a = none := by
  induction m with
  | nil => rfl
  | cons c m ih =>
    obtain ⟨a', b'⟩ := c
    by_cases e : a' = a
    · subst e; simp [h b', ih]
    · by_cases hp : p (a', b') = true <;> simp [hp, Memory.listed, e, ih]

/-- The first part of an append answers first. -/
theorem Memory.listed_append (m n : List Host.Cell) (a : Nat) :
    Memory.listed (m ++ n) a = (Memory.listed m a).or (Memory.listed n a) := by
  induction m with
  | nil => rfl
  | cons c m ih => by_cases e : c.1 = a <;> simp [Memory.listed, e, ih]

/-- A read depends on what is listed at the address alone. -/
theorem Memory.read_congr {m n : List Host.Cell} {a : Nat} (h : Memory.listed m a = Memory.listed n a) :
    Memory.read m a = Memory.read n a := by
  unfold Memory.read; rw [h]

/-- Reading the address just written gives the byte written. -/
theorem Memory.read_write_same (m : List Host.Cell) (a : Nat) (b : Byte) (h : a < Config.memSize) :
    Memory.read (Memory.write m a b) a = b := by
  have h1 : Memory.listed (m.filter fun c => c.1 < a) a = none := Memory.listed_filter_none _ _ _ (by simp)
  simp [Memory.read, Memory.write, h, Memory.listed_append, h1, Memory.listed]

/-- Reading any other address gives what it gave before the write. -/
theorem Memory.read_write_other (m : List Host.Cell) (a a' : Nat) (b : Byte) (h : a' ≠ a) :
    Memory.read (Memory.write m a b) a' = Memory.read m a' := by
  unfold Memory.write
  split
  · apply Memory.read_congr
    rw [Memory.listed_append, Memory.listed, if_neg (Ne.symm h)]
    rcases Nat.lt_or_gt_of_ne h with g | g
    · rw [Memory.listed_filter m _ a' (by simpa using g), Memory.listed_filter_none m _ a' (by simp; omega)]
      simp
    · rw [Memory.listed_filter_none m _ a' (by simp; omega), Memory.listed_filter m _ a' (by simpa using g)]
      simp
  · rfl

/-- What every address reads as after a string of bytes is stored. -/
theorem Memory.read_writeBytes (m : List Host.Cell) (a : Nat) (bs : List Byte) (h : a + bs.length ≤ Config.memSize)
    (b : Nat) :
    Memory.read (Memory.writeBytes m a bs) b =
      if a ≤ b then (bs[b - a]?).getD (Memory.read m b) else Memory.read m b := by
  induction bs generalizing m a with
  | nil => simp [Memory.writeBytes]
  | cons x bs ih =>
    simp only [List.length_cons] at h
    rw [Memory.writeBytes, ih _ _ (by omega)]
    rcases Nat.lt_trichotomy b a with g | g | g
    · rw [if_neg (by omega), if_neg (by omega), Memory.read_write_other _ _ _ _ (by omega)]
    · subst g
      rw [if_neg (by omega), Memory.read_write_same _ _ _ (by omega)]
      simp
    · rw [if_pos (by omega), if_pos (by omega), Memory.read_write_other _ _ _ _ (by omega)]
      have e : b - a = (b - (a + 1)) + 1 := by omega
      rw [e, List.getElem?_cons_succ]

/-- A store leaves every byte outside it alone, wherever it goes. -/
theorem Memory.read_writeBytes_outside (m : List Host.Cell) (a : Nat) (bs : List Byte) (b : Nat)
    (h : ¬(a ≤ b ∧ b < a + bs.length)) : Memory.read (Memory.writeBytes m a bs) b = Memory.read m b := by
  induction bs generalizing m a with
  | nil => rfl
  | cons x bs ih =>
    simp only [List.length_cons] at h
    rw [Memory.writeBytes, ih _ _ (by omega), Memory.read_write_other _ _ _ _ (by omega)]

/-- The canonical form read as facts about the cells. -/
theorem Memory.wfFrom_iff (lo : Nat) (m : List Host.Cell) :
    Memory.wfFrom lo m = true ↔
      m.Pairwise (fun c d => c.1 < d.1) ∧ ∀ c ∈ m, lo ≤ c.1 ∧ c.1 < Config.memSize := by
  induction m generalizing lo with
  | nil => simp [Memory.wfFrom]
  | cons c m ih =>
    simp only [Memory.wfFrom, Bool.and_eq_true, decide_eq_true_eq, ih, List.pairwise_cons, List.forall_mem_cons]
    constructor
    · rintro ⟨h1, h2, hp, hm⟩
      exact ⟨⟨fun d hd => (hm d hd).1, hp⟩, ⟨h1, h2⟩, fun d hd => ⟨by have := (hm d hd).1; omega, (hm d hd).2⟩⟩
    · rintro ⟨⟨hlt, hp⟩, ⟨h1, h2⟩, hm⟩
      exact ⟨h1, h2, hp, fun d hd => ⟨hlt d hd, (hm d hd).2⟩⟩

/-- Dropping cells keeps the canonical form. -/
theorem Memory.wf_filter (m : List Host.Cell) (p : Host.Cell → Bool) (h : Memory.wf m = true) :
    Memory.wf (m.filter p) = true := by
  unfold Memory.wf at *
  rw [Memory.wfFrom_iff] at h ⊢
  exact ⟨h.1.filter _, fun c hc => h.2 c (List.mem_of_mem_filter hc)⟩

/-- A write keeps the canonical form. -/
theorem Memory.wf_write (m : List Host.Cell) (a : Nat) (b : Byte) (h : Memory.wf m = true) :
    Memory.wf (Memory.write m a b) = true := by
  unfold Memory.write
  split
  case isFalse => exact h
  case isTrue ha =>
    unfold Memory.wf at *
    rw [Memory.wfFrom_iff] at h ⊢
    obtain ⟨hp, hm⟩ := h
    refine ⟨?_, ?_⟩
    · rw [List.pairwise_append, List.pairwise_cons]
      refine ⟨hp.filter _, ⟨fun d hd => by simpa using (List.mem_filter.1 hd).2, hp.filter _⟩, fun c hc d hd => ?_⟩
      have h1 : c.1 < a := by simpa using (List.mem_filter.1 hc).2
      rcases List.mem_cons.1 hd with rfl | hd
      · exact h1
      · have h2 : a < d.1 := by simpa using (List.mem_filter.1 hd).2
        omega
    · intro c hc
      rcases List.mem_append.1 hc with hc | hc
      · exact hm c (List.mem_of_mem_filter hc)
      · rcases List.mem_cons.1 hc with rfl | hc
        · exact ⟨Nat.zero_le _, ha⟩
        · exact hm c (List.mem_of_mem_filter hc)

/-- Storing a string of bytes keeps the canonical form. -/
theorem Memory.wf_writeBytes (m : List Host.Cell) (a : Nat) (bs : List Byte) (h : Memory.wf m = true) :
    Memory.wf (Memory.writeBytes m a bs) = true := by
  induction bs generalizing m a with
  | nil => exact h
  | cons b bs ih => exact ih _ _ (Memory.wf_write m a b h)

/-- Seeding the font keeps the canonical form. -/
theorem Memory.wf_seedFont (m : List Host.Cell) (h : Memory.wf m = true) : Memory.wf (Memory.seedFont m) = true :=
  Memory.wf_filter m _ h

/-- The font region, as an interval. -/
theorem inFont_iff (a : Nat) : inFont a = true ↔ fontBase ≤ a ∧ a < fontBase + fontSize := by simp [inFont]

/-- What every address reads as after the font is seeded (R154): `FONT` in the font region, and elsewhere what it was. -/
theorem Memory.read_seedFont (m : List Host.Cell) (a : Nat) :
    Memory.read (Memory.seedFont m) a = if inFont a then Config.font (a - fontBase) else Memory.read m a := by
  unfold Memory.seedFont
  by_cases h : inFont a = true
  · rw [Memory.read, Memory.listed_filter_none _ _ _ (by simp [h])]; simp [Memory.unlisted, h]
  · rw [if_neg h]; exact Memory.read_congr (Memory.listed_filter _ _ _ (by simp [h]))

/-- What every address reads as in the empty memory of reset: `FONT` in the font region, `MEM_INIT` elsewhere. -/
theorem Memory.read_nil (a : Nat) :
    Memory.read [] a = if inFont a then Config.font (a - fontBase) else Config.memInit a := rfl

/-- The empty memory list of reset is in the canonical form. -/
theorem Memory.wf_nil : Memory.wf [] = true := rfl

end Sys2Proof.Machine
end

