-- ==== Sys2Proof/Laws/Ports.lean ====
section
/-! SUPPORT. What each field reads after each port operation, and what `load` does. -/

namespace Sys2Proof.Machine

/-! ### `keyIn` -/

@[simp] theorem State.keyIn_mem (s : State) (k : BitVec 16) : (s.keyIn k).mem = s.mem := rfl
@[simp] theorem State.keyIn_v (s : State) (k : BitVec 16) : (s.keyIn k).v = s.v := rfl
@[simp] theorem State.keyIn_i (s : State) (k : BitVec 16) : (s.keyIn k).i = s.i := rfl
@[simp] theorem State.keyIn_pc (s : State) (k : BitVec 16) : (s.keyIn k).pc = s.pc := rfl
@[simp] theorem State.keyIn_stack (s : State) (k : BitVec 16) : (s.keyIn k).stack = s.stack := rfl
@[simp] theorem State.keyIn_sp (s : State) (k : BitVec 16) : (s.keyIn k).sp = s.sp := rfl
@[simp] theorem State.keyIn_dt (s : State) (k : BitVec 16) : (s.keyIn k).dt = s.dt := rfl
@[simp] theorem State.keyIn_fb (s : State) (k : BitVec 16) : (s.keyIn k).fb = s.fb := rfl
@[simp] theorem State.keyIn_key (s : State) (k : BitVec 16) : (s.keyIn k).key = k := rfl
@[simp] theorem State.keyIn_df (s : State) (k : BitVec 16) : (s.keyIn k).df = s.df := rfl
@[simp] theorem State.keyIn_opc (s : State) (k : BitVec 16) : (s.keyIn k).opc = s.opc := rfl
@[simp] theorem State.keyIn_flt (s : State) (k : BitVec 16) : (s.keyIn k).flt = s.flt := rfl
@[simp] theorem State.keyIn_loadError (s : State) (k : BitVec 16) : (s.keyIn k).loadError = s.loadError := rfl
@[simp] theorem State.keyIn_diags (s : State) (k : BitVec 16) : (s.keyIn k).diags = s.diags := rfl
@[simp] theorem State.keyIn_randDraws (s : State) (k : BitVec 16) : (s.keyIn k).randDraws = s.randDraws := rfl
@[simp] theorem State.keyIn_reg (s : State) (k : BitVec 16) (r : Nibble) : (s.keyIn k).reg r = s.reg r := rfl
@[simp] theorem State.keyIn_byteAt (s : State) (k : BitVec 16) (a : Nat) : (s.keyIn k).byteAt a = s.byteAt a := rfl
@[simp] theorem State.keyIn_pixel (s : State) (k : BitVec 16) (p : Fin 2048) : (s.keyIn k).pixel p = s.pixel p := rfl

/-! ### `drawFlagClear` -/

@[simp] theorem State.drawFlagClear_mem (s : State) : (s.drawFlagClear).mem = s.mem := rfl
@[simp] theorem State.drawFlagClear_v (s : State) : (s.drawFlagClear).v = s.v := rfl
@[simp] theorem State.drawFlagClear_i (s : State) : (s.drawFlagClear).i = s.i := rfl
@[simp] theorem State.drawFlagClear_pc (s : State) : (s.drawFlagClear).pc = s.pc := rfl
@[simp] theorem State.drawFlagClear_stack (s : State) : (s.drawFlagClear).stack = s.stack := rfl
@[simp] theorem State.drawFlagClear_sp (s : State) : (s.drawFlagClear).sp = s.sp := rfl
@[simp] theorem State.drawFlagClear_dt (s : State) : (s.drawFlagClear).dt = s.dt := rfl
@[simp] theorem State.drawFlagClear_fb (s : State) : (s.drawFlagClear).fb = s.fb := rfl
@[simp] theorem State.drawFlagClear_key (s : State) : (s.drawFlagClear).key = s.key := rfl
@[simp] theorem State.drawFlagClear_df (s : State) : (s.drawFlagClear).df = false := rfl
@[simp] theorem State.drawFlagClear_opc (s : State) : (s.drawFlagClear).opc = s.opc := rfl
@[simp] theorem State.drawFlagClear_flt (s : State) : (s.drawFlagClear).flt = s.flt := rfl
@[simp] theorem State.drawFlagClear_loadError (s : State) : (s.drawFlagClear).loadError = s.loadError := rfl
@[simp] theorem State.drawFlagClear_diags (s : State) : (s.drawFlagClear).diags = s.diags := rfl
@[simp] theorem State.drawFlagClear_randDraws (s : State) : (s.drawFlagClear).randDraws = s.randDraws := rfl
@[simp] theorem State.drawFlagClear_reg (s : State) (r : Nibble) : (s.drawFlagClear).reg r = s.reg r := rfl
@[simp] theorem State.drawFlagClear_byteAt (s : State) (a : Nat) : (s.drawFlagClear).byteAt a = s.byteAt a := rfl
@[simp] theorem State.drawFlagClear_pixel (s : State) (p : Fin 2048) : (s.drawFlagClear).pixel p = s.pixel p := rfl
@[simp] theorem State.drawFlagClear_keyDown (s : State) (k : Nat) : (s.drawFlagClear).keyDown k = s.keyDown k := rfl

/-! ### `hostReset` -/

@[simp] theorem State.hostReset_mem (s : State) : (s.hostReset).mem = Memory.seedFont s.mem := rfl
@[simp] theorem State.hostReset_v (s : State) : (s.hostReset).v = Vector.replicate 16 0x00#8 := rfl
@[simp] theorem State.hostReset_i (s : State) : (s.hostReset).i = 0x0000#16 := rfl
@[simp] theorem State.hostReset_pc (s : State) : (s.hostReset).pc = 0x0200#16 := rfl
@[simp] theorem State.hostReset_stack (s : State) : (s.hostReset).stack = Vector.replicate 16 0x0000#16 := rfl
@[simp] theorem State.hostReset_sp (s : State) : (s.hostReset).sp = 0 := rfl
@[simp] theorem State.hostReset_dt (s : State) : (s.hostReset).dt = 0x00#8 := rfl
@[simp] theorem State.hostReset_fb (s : State) : (s.hostReset).fb = Vector.replicate 2048 0x00#8 := rfl
@[simp] theorem State.hostReset_key (s : State) : (s.hostReset).key = 0x0000#16 := rfl
@[simp] theorem State.hostReset_df (s : State) : (s.hostReset).df = false := rfl
@[simp] theorem State.hostReset_opc (s : State) : (s.hostReset).opc = 0x0000#16 := rfl
@[simp] theorem State.hostReset_flt (s : State) : (s.hostReset).flt = none := rfl
@[simp] theorem State.hostReset_loadError (s : State) : (s.hostReset).loadError = s.loadError := by simp only [State.hostReset]
@[simp] theorem State.hostReset_diags (s : State) : (s.hostReset).diags = s.diags := by simp only [State.hostReset]
@[simp] theorem State.hostReset_randDraws (s : State) : (s.hostReset).randDraws = s.randDraws := by simp only [State.hostReset]

/-- What every byte reads as after a reset (R154, R59): `FONT` in the font region, and elsewhere what it was. -/
theorem State.hostReset_byteAt (s : State) (a : Nat) :
    s.hostReset.byteAt a = if inFont a then Config.font (a - fontBase) else s.byteAt a := Memory.read_seedFont s.mem a

/-- What every byte reads as in the state after power-on and the first reset (R39). -/
theorem State.reset_byteAt (a : Nat) :
    State.reset.byteAt a = if inFont a then Config.font (a - fontBase) else Config.memInit a := Memory.read_nil a

/-- A glyph's bytes after a reset, where `FONT` is the default table (R56). -/
theorem State.hostReset_glyph (h : FontIsDefault) (s : State) (j : Nat) (hj : j < defaultFont.length) :
    s.hostReset.byteAt (fontBase + j) = defaultFont[j] := by
  have hl : defaultFont.length = fontSize := rfl
  rw [State.hostReset_byteAt, if_pos ((inFont_iff _).2 ⟨by omega, by omega⟩), Nat.add_sub_cancel_left]
  exact h j hj

/-! ### `load` -/

/-- A rejected image (R156): the bit and the event, and nothing else. -/
theorem State.load_tooLarge (s : State) (bs : List Byte) (h : Config.maxImage < bs.length) :
    s.load bs =
      { (s.addDiag (.programTooLarge s.opc (Config.loadEventPc s.diags.length))) with loadError := true } := by
  simp [State.load, h]

/-- An accepted image (R155): its bytes at 0x200 and the bit cleared, and nothing else. -/
theorem State.load_accepted (s : State) (bs : List Byte) (h : bs.length ≤ Config.maxImage) :
    s.load bs = { s.storeBytes Config.progBase bs with loadError := false } := by
  simp [State.load, Nat.not_lt.mpr h]

/-! ### Sessions and runs -/

/-- No operation. -/
@[simp] theorem session_nil (s : State) : session [] s = .next s := rfl

/-- An operation that answers a next state hands it on. -/
theorem session_cons_of_next {o : PortOp} {s t : State} (h : o.apply s = .next t) (os : List PortOp) :
    session (o :: os) s = session os t := by
  simp [session, h]

/-- A session ends where its second part ends, from where its first part ended. -/
theorem session_append_of_next {os : List PortOp} {s t : State} (h : session os s = .next t) (os' : List PortOp) :
    session (os ++ os') s = session os' t := by
  induction os generalizing s with
  | nil => cases h; rfl
  | cons o os ih =>
    cases ho : o.apply s <;> simp [session, ho] at h ⊢
    exact ih h

/-- A session of two parts that ended well had a first part that did. -/
theorem session_append_eq_next {os os' : List PortOp} {s t : State} (h : session (os ++ os') s = .next t) :
    ∃ u, session os s = .next u ∧ session os' u = .next t := by
  induction os generalizing s with
  | nil => exact ⟨s, rfl, h⟩
  | cons o os ih =>
    cases ho : o.apply s <;> simp [session, ho] at h ⊢
    exact ih h

/-- An input is its port operation. -/
theorem HostInput.op_apply (i : HostInput) (s : State) : i.op.apply s = .next (s.input i) := by cases i <;> rfl

/-- Inputs change the keypad and the draw flag alone. -/
theorem State.foldl_input (s : State) (ins : List HostInput) :
    ∃ k b, ins.foldl State.input s = { s with key := k, df := b } := by
  induction ins generalizing s with
  | nil => exact ⟨s.key, s.df, rfl⟩
  | cons i ins ih =>
    obtain ⟨k, b, h⟩ := ih (s.input i)
    exact ⟨k, b, by rw [List.foldl_cons, h]; cases i <;> rfl⟩

/-- A session that starts with inputs goes on from the state after them. -/
theorem session_inputs (ins : List HostInput) (os : List PortOp) (s : State) :
    session (ins.map HostInput.op ++ os) s = session os (ins.foldl State.input s) := by
  induction ins generalizing s with
  | nil => rfl
  | cons i ins ih => exact (session_cons_of_next (i.op_apply s) _).trans (ih _)

/-- A run of no cycle. -/
@[simp] theorem hostRun_nil (s : State) : hostRun [] s = .next s := rfl

/-- The first cycle of a run: the inputs, one step, and the rest of the run. -/
theorem hostRun_cons (ins : List HostInput) (script : Script) (s : State) :
    hostRun (ins :: script) s =
      match step (ins.foldl State.input s) with
      | .next t => hostRun script t
      | .fault r => .fault r
      | .refused r => .refused r := by
  have e : hostRun (ins :: script) s =
      session (.step :: (script.map cycleOps).flatten) (ins.foldl State.input s) := by
    rw [← session_inputs]; simp [hostRun, cycleOps]
  rw [e, session]
  cases hu : step (ins.foldl State.input s) <;> simp [PortOp.apply, hu, hostRun]

end Sys2Proof.Machine
end

