-- ==== Sys2Proof/Laws/Step.lean ====
section
/-! SUPPORT. Everything a step can do, said once (spec/30_encoding.md R74), and how runs of steps unfold. -/

namespace Sys2Proof.Machine

/-- A cycle that answers a next state finished an instruction that did. -/
theorem finishCycle_eq_next (r : Result) (t : State) (h : finishCycle r = .next t) : ∃ u, r = .next u ∧ t = u.tick := by
  cases r with
  | next u => exact ⟨u, rfl, by cases h; rfl⟩
  | fault _ => cases h
  | refused _ => cases h

/-- A step that answers a next state: the core was halted, the fetch faulted, the word was unknown, or an instruction ran
in the advanced state. -/
theorem step_cases (s t : State) (h : step s = .next t) :
    (s.flt ≠ none ∧ t = s) ∨
    (s.flt = none ∧ ∃ f, s.fetch = .error f ∧ t = s.takeFault s.pc f.reason f.info) ∨
    (s.flt = none ∧ ∃ w, s.fetch = .ok w ∧ decode w = none ∧ t = (s.advance w).unknownOpcode.tick) ∨
    (s.flt = none ∧ ∃ w i u, s.fetch = .ok w ∧ decode w = some i ∧ exec i (s.advance w) = .next u ∧ t = u.tick) := by
  unfold step at h
  split at h
  · rename_i f hf; exact .inl ⟨by simp [hf], by cases h; rfl⟩
  · rename_i hf
    split at h
    · rename_i f e; exact .inr (.inl ⟨hf, f, e, by cases h; rfl⟩)
    · rename_i w e
      split at h
      · rename_i i d
        obtain ⟨u, hu, ht⟩ := finishCycle_eq_next _ _ h
        exact .inr (.inr (.inr ⟨hf, w, i, u, e, d, hu, ht⟩))
      · rename_i d; exact .inr (.inr (.inl ⟨hf, w, e, d, by cases h; rfl⟩))

/-- The step after a successful fetch. -/
theorem step_of_fetches (s : State) (w : Word) (h : s.Fetches w) :
    step s = match decode w with
      | some i => finishCycle (exec i (s.advance w))
      | none => finishCycle (.next (s.advance w).unknownOpcode) := by
  cases hd : decode w <;> simp [step, h.1, h.2, hd]

/-- No cycle at all. -/
theorem afterCycles_zero (s t : State) : AfterCycles 0 [] s t ↔ t = s := by
  constructor
  · rintro ⟨_, h⟩; cases h; rfl
  · rintro rfl; exact ⟨rfl, rfl⟩

/-- One cycle, with the host's inputs before it, and then `k` more. -/
theorem afterCycles_succ (k : Nat) (ins : List HostInput) (script : Script) (s t : State) :
    AfterCycles (k + 1) (ins :: script) s t ↔
      ∃ u, step (ins.foldl State.input s) = .next u ∧ AfterCycles k script u t := by
  unfold AfterCycles
  rw [hostRun_cons]
  cases hu : step (ins.foldl State.input s) <;> simp

/-- A run is as long as its script. -/
theorem afterCycles_length {k : Nat} {script : Script} {s t : State} (h : AfterCycles k script s t) : script.length = k := h.1

/-- A run in which the host supplies nothing is the core's own run of steps. -/
theorem hostRun_no_input (k : Nat) (s : State) :
    hostRun (List.replicate k []) s = Host.Core.run Sys2Proof.core k s := by
  induction k generalizing s with
  | zero => rfl
  | succ k ih =>
    rw [List.replicate_succ, hostRun_cons, List.foldl_nil]
    cases hu : Sys2Proof.core.step s with
    | next t => simp only [Host.Core.run, hu, show step s = .next t from hu]; exact ih t
    | fault r => simp only [Host.Core.run, hu, show step s = .fault r from hu]; rfl
    | refused r => simp only [Host.Core.run, hu, show step s = .refused r from hu]; rfl

/-- The last cycle of a run: the inputs before it and one step, from where the run before it ended. -/
theorem afterCycles_last {before : Script} {last : List HostInput} {k : Nat} {s u t : State}
    (hu : AfterCycles before.length before s u) (ht : AfterCycles k (before ++ [last]) s t) :
    step (last.foldl State.input u) = .next t := by
  have h := ht.2
  rw [hostRun, List.map_append, List.flatten_append] at h
  obtain ⟨v, hv, h⟩ := session_append_eq_next h
  cases hv.symm.trans hu.2
  obtain ⟨w, hw, ht⟩ := (afterCycles_succ 0 last [] u t).1 ⟨rfl, h⟩
  rw [hw, (afterCycles_zero w t).1 ht]

/-- What the first fetch from `a` says of the run's last cycle: it started at `a` and took no fault. -/
theorem firstFetchAt_last {a : Word} {before : Script} {last : List HostInput} {s u t : State}
    (hu : AfterCycles before.length before s u) (h : FirstFetchAt a (before ++ [last]) s t) :
    u.pc = a ∧ step (last.foldl State.input u) = .next t ∧ t.flt = none := by
  obtain ⟨b, l, v, e, hv, hp, _, ht, hf⟩ := h
  obtain ⟨rfl, _⟩ := List.append_inj' e rfl
  cases hv.2.symm.trans hu.2
  exact ⟨hp, afterCycles_last hu ht, hf⟩

/-- Of two runs of one host, one the start of the other, that each end with the first fetch from `a`, both are the same run
with the same state. -/
theorem firstFetchAt_unique {a : Word} {p q : Script} {s t u : State} (hp : FirstFetchAt a p s t)
    (hq : FirstFetchAt a q s u) (h : p <+: q) : p = q ∧ t = u := by
  obtain ⟨b, l, v, rfl, hv, hva, _, ht, _⟩ := hp
  obtain ⟨b', l', _, rfl, _, _, hmin, hu, _⟩ := hq
  have hlen : b.length = b'.length := by
    rcases Nat.lt_or_ge b.length b'.length with g | g
    · have hb : b'.take b.length = b :=
        (List.prefix_iff_eq_take.1 (List.prefix_of_prefix_length_le ((List.prefix_append b [l]).trans h)
          (List.prefix_append b' [l']) (Nat.le_of_lt g))).symm
      exact absurd hva (hmin b.length g v (hb.symm ▸ hv))
    · have := h.length_le; simp at this; omega
  have e := h.eq_of_length (by simp [hlen])
  rw [e] at ht
  exact ⟨e, Host.Outcome.next.inj (ht.2.symm.trans hu.2)⟩

end Sys2Proof.Machine
end

