-- ==== Sys2Proof/Laws/Frames.lean ====
section
/-! SUPPORT. How frames compose, and the frame of each named update. -/

namespace Sys2Proof.Machine

/-- Nothing changed. -/
theorem onlyChanges_refl (ps : List Part) (s : State) : OnlyChanges ps s s := by
  intro p _; cases p <;> simp [Part.Same]

/-- Two changes, one after the other. -/
theorem OnlyChanges.trans {s t u : State} {ps qs : List Part} (h : OnlyChanges ps s t) (g : OnlyChanges qs t u) :
    OnlyChanges (ps ++ qs) s u := by
  intro p hp
  simp only [List.mem_append, not_or] at hp
  have a := h p hp.1
  have b := g p hp.2
  cases p <;> simp_all [Part.Same]

/-- A longer list claims less. -/
theorem OnlyChanges.mono {s t : State} {ps qs : List Part} (h : OnlyChanges ps s t) (g : ∀ p ∈ ps, p ∈ qs) :
    OnlyChanges qs s t := fun p hp => h p fun k => hp (g p k)

theorem onlyChanges_setReg (s : State) (x : Nibble) (b : Byte) : OnlyChanges [.registers] s (s.setReg x b) := by
  intro p hp; cases p <;> simp [Part.Same] at hp ⊢

theorem onlyChanges_setRegFlag (s : State) (x : Nibble) (b : Byte) (c : Bool) :
    OnlyChanges [.registers] s (s.setRegFlag x b c) := by
  intro p hp; cases p <;> simp [Part.Same, State.setRegFlag] at hp ⊢

theorem onlyChanges_setPc (s : State) (w : Word) : OnlyChanges [.pc] s (s.setPc w) := by
  intro p hp; cases p <;> simp [Part.Same] at hp ⊢

theorem onlyChanges_skipIf (s : State) (c : Bool) : OnlyChanges [.pc] s (s.skipIf c) := by
  rw [State.skipIf_eq]; exact onlyChanges_setPc _ _

theorem onlyChanges_setI (s : State) (w : Word) : OnlyChanges [.index] s (s.setI w) := by
  intro p hp; cases p <;> simp [Part.Same] at hp ⊢

theorem onlyChanges_setDt (s : State) (b : Byte) : OnlyChanges [.delay] s (s.setDt b) := by
  intro p hp; cases p <;> simp [Part.Same] at hp ⊢

theorem onlyChanges_show (s : State) (f : Vector Byte 2048) : OnlyChanges [.framebuffer, .drawFlag] s (s.show f) := by
  intro p hp; cases p <;> simp [Part.Same] at hp ⊢

theorem onlyChanges_addDiag (s : State) (d : Diag) : OnlyChanges [.diagnostics] s (s.addDiag d) := by
  intro p hp; cases p <;> simp [Part.Same] at hp ⊢

theorem onlyChanges_takeFault (s : State) (w : Word) (r : Fault) (a : Nat) :
    OnlyChanges [.pc, .fault] s (s.takeFault w r a) := by
  intro p hp; cases p <;> simp [Part.Same] at hp ⊢

theorem onlyChanges_storeBytes (s : State) (a : Nat) (bs : List Byte) : OnlyChanges [.memory] s (s.storeBytes a bs) := by
  intro p hp; cases p <;> simp [Part.Same] at hp ⊢

theorem onlyChanges_loadRegs (s : State) (n : Nat) : OnlyChanges [.registers] s (s.loadRegs n) := by
  obtain ⟨v, hv⟩ := s.loadRegs_eq n
  rw [hv]
  intro p hp; cases p <;> simp [Part.Same] at hp ⊢
  intro a; rfl

theorem onlyChanges_advance (s : State) (w : Word) : OnlyChanges [.pc, .opcode] s (s.advance w) := by
  intro p hp; cases p <;> simp [Part.Same] at hp ⊢

theorem onlyChanges_tick (s : State) : OnlyChanges [.delay] s s.tick := by
  rw [State.tick_eq]
  intro p hp; cases p <;> simp [Part.Same] at hp ⊢
  · intro a; rfl
  · intro a; rfl

end Sys2Proof.Machine
end

