-- ==== Sys2Proof/Laws/PerInstr.lean ====
section
/-! SUPPORT. The per-instruction family TablePattern: an instruction's canonical word has the fixed bits of its row of
spec/opcode_table.json, so it lies in the row's pattern. -/

namespace Sys2Proof.Laws.TablePattern

/-- The canonical word lies in the pattern of the instruction's row. -/
def Statement (i : Instr) : Prop := encode i &&& rowMask i = rowMatch i

theorem cls : Statement .cls := rfl

theorem ret : Statement .ret := rfl

theorem jp (nnn : Addr) : Statement (.jp nnn) := by
  show (0x1#4 ++ nnn : Word) &&& 0xF000#16 = 0x1000#16
  exact (mask_family _ _ (by decide)).2 ((fields_addr 0x1#4 nnn).1.trans (by decide))

theorem call (nnn : Addr) : Statement (.call nnn) := by
  show (0x2#4 ++ nnn : Word) &&& 0xF000#16 = 0x2000#16
  exact (mask_family _ _ (by decide)).2 ((fields_addr 0x2#4 nnn).1.trans (by decide))

theorem seImm (x : Nibble) (nn : Byte) : Statement (.seImm x nn) := by
  show (0x3#4 ++ x ++ nn : Word) &&& 0xF000#16 = 0x3000#16
  exact (mask_family _ _ (by decide)).2 ((fields_byte 0x3#4 x nn).1.trans (by decide))

theorem sneImm (x : Nibble) (nn : Byte) : Statement (.sneImm x nn) := by
  show (0x4#4 ++ x ++ nn : Word) &&& 0xF000#16 = 0x4000#16
  exact (mask_family _ _ (by decide)).2 ((fields_byte 0x4#4 x nn).1.trans (by decide))

theorem seReg (x : Nibble) (y : Nibble) : Statement (.seReg x y) := by
  show (0x5#4 ++ x ++ y ++ 0x0#4 : Word) &&& 0xF000#16 = 0x5000#16
  exact (mask_family _ _ (by decide)).2 ((fields_nibbles 0x5#4 x y 0x0#4).1.trans (by decide))

theorem ldImm (x : Nibble) (nn : Byte) : Statement (.ldImm x nn) := by
  show (0x6#4 ++ x ++ nn : Word) &&& 0xF000#16 = 0x6000#16
  exact (mask_family _ _ (by decide)).2 ((fields_byte 0x6#4 x nn).1.trans (by decide))

theorem addImm (x : Nibble) (nn : Byte) : Statement (.addImm x nn) := by
  show (0x7#4 ++ x ++ nn : Word) &&& 0xF000#16 = 0x7000#16
  exact (mask_family _ _ (by decide)).2 ((fields_byte 0x7#4 x nn).1.trans (by decide))

theorem ldReg (x : Nibble) (y : Nibble) : Statement (.ldReg x y) := by
  show (0x8#4 ++ x ++ y ++ 0x0#4 : Word) &&& 0xF00F#16 = 0x8000#16
  exact (mask_family_low _ _ (by decide)).2 ⟨(fields_nibbles 0x8#4 x y 0x0#4).1.trans (by decide), (fields_nibbles 0x8#4 x y 0x0#4).2.2.2.trans (by decide)⟩

theorem orReg (x : Nibble) (y : Nibble) : Statement (.orReg x y) := by
  show (0x8#4 ++ x ++ y ++ 0x1#4 : Word) &&& 0xF00F#16 = 0x8001#16
  exact (mask_family_low _ _ (by decide)).2 ⟨(fields_nibbles 0x8#4 x y 0x1#4).1.trans (by decide), (fields_nibbles 0x8#4 x y 0x1#4).2.2.2.trans (by decide)⟩

theorem andReg (x : Nibble) (y : Nibble) : Statement (.andReg x y) := by
  show (0x8#4 ++ x ++ y ++ 0x2#4 : Word) &&& 0xF00F#16 = 0x8002#16
  exact (mask_family_low _ _ (by decide)).2 ⟨(fields_nibbles 0x8#4 x y 0x2#4).1.trans (by decide), (fields_nibbles 0x8#4 x y 0x2#4).2.2.2.trans (by decide)⟩

theorem xorReg (x : Nibble) (y : Nibble) : Statement (.xorReg x y) := by
  show (0x8#4 ++ x ++ y ++ 0x3#4 : Word) &&& 0xF00F#16 = 0x8003#16
  exact (mask_family_low _ _ (by decide)).2 ⟨(fields_nibbles 0x8#4 x y 0x3#4).1.trans (by decide), (fields_nibbles 0x8#4 x y 0x3#4).2.2.2.trans (by decide)⟩

theorem addReg (x : Nibble) (y : Nibble) : Statement (.addReg x y) := by
  show (0x8#4 ++ x ++ y ++ 0x4#4 : Word) &&& 0xF00F#16 = 0x8004#16
  exact (mask_family_low _ _ (by decide)).2 ⟨(fields_nibbles 0x8#4 x y 0x4#4).1.trans (by decide), (fields_nibbles 0x8#4 x y 0x4#4).2.2.2.trans (by decide)⟩

theorem sub (x : Nibble) (y : Nibble) : Statement (.sub x y) := by
  show (0x8#4 ++ x ++ y ++ 0x5#4 : Word) &&& 0xF00F#16 = 0x8005#16
  exact (mask_family_low _ _ (by decide)).2 ⟨(fields_nibbles 0x8#4 x y 0x5#4).1.trans (by decide), (fields_nibbles 0x8#4 x y 0x5#4).2.2.2.trans (by decide)⟩

theorem shr (x : Nibble) (y : Nibble) : Statement (.shr x y) := by
  show (0x8#4 ++ x ++ y ++ 0x6#4 : Word) &&& 0xF00F#16 = 0x8006#16
  exact (mask_family_low _ _ (by decide)).2 ⟨(fields_nibbles 0x8#4 x y 0x6#4).1.trans (by decide), (fields_nibbles 0x8#4 x y 0x6#4).2.2.2.trans (by decide)⟩

theorem subn (x : Nibble) (y : Nibble) : Statement (.subn x y) := by
  show (0x8#4 ++ x ++ y ++ 0x7#4 : Word) &&& 0xF00F#16 = 0x8007#16
  exact (mask_family_low _ _ (by decide)).2 ⟨(fields_nibbles 0x8#4 x y 0x7#4).1.trans (by decide), (fields_nibbles 0x8#4 x y 0x7#4).2.2.2.trans (by decide)⟩

theorem shl (x : Nibble) (y : Nibble) : Statement (.shl x y) := by
  show (0x8#4 ++ x ++ y ++ 0xE#4 : Word) &&& 0xF00F#16 = 0x800E#16
  exact (mask_family_low _ _ (by decide)).2 ⟨(fields_nibbles 0x8#4 x y 0xE#4).1.trans (by decide), (fields_nibbles 0x8#4 x y 0xE#4).2.2.2.trans (by decide)⟩

theorem sneReg (x : Nibble) (y : Nibble) : Statement (.sneReg x y) := by
  show (0x9#4 ++ x ++ y ++ 0x0#4 : Word) &&& 0xF000#16 = 0x9000#16
  exact (mask_family _ _ (by decide)).2 ((fields_nibbles 0x9#4 x y 0x0#4).1.trans (by decide))

theorem ldI (nnn : Addr) : Statement (.ldI nnn) := by
  show (0xA#4 ++ nnn : Word) &&& 0xF000#16 = 0xA000#16
  exact (mask_family _ _ (by decide)).2 ((fields_addr 0xA#4 nnn).1.trans (by decide))

theorem jpV0 (nnn : Addr) : Statement (.jpV0 nnn) := by
  show (0xB#4 ++ nnn : Word) &&& 0xF000#16 = 0xB000#16
  exact (mask_family _ _ (by decide)).2 ((fields_addr 0xB#4 nnn).1.trans (by decide))

theorem rnd (x : Nibble) (nn : Byte) : Statement (.rnd x nn) := by
  show (0xC#4 ++ x ++ nn : Word) &&& 0xF000#16 = 0xC000#16
  exact (mask_family _ _ (by decide)).2 ((fields_byte 0xC#4 x nn).1.trans (by decide))

theorem drw (x : Nibble) (y : Nibble) (n : Nibble) : Statement (.drw x y n) := by
  show (0xD#4 ++ x ++ y ++ n : Word) &&& 0xF000#16 = 0xD000#16
  exact (mask_family _ _ (by decide)).2 ((fields_nibbles 0xD#4 x y n).1.trans (by decide))

theorem skp (x : Nibble) : Statement (.skp x) := by
  show (0xE#4 ++ x ++ 0x9E#8 : Word) &&& 0xF00F#16 = 0xE00E#16
  exact (mask_family_low _ _ (by decide)).2 ⟨(fields_byte 0xE#4 x 0x9E#8).1.trans (by decide), (fields_byte_low 0xE#4 x 0x9E#8).2.trans (by decide)⟩

theorem sknp (x : Nibble) : Statement (.sknp x) := by
  show (0xE#4 ++ x ++ 0xA1#8 : Word) &&& 0xF00F#16 = 0xE001#16
  exact (mask_family_low _ _ (by decide)).2 ⟨(fields_byte 0xE#4 x 0xA1#8).1.trans (by decide), (fields_byte_low 0xE#4 x 0xA1#8).2.trans (by decide)⟩

theorem ldVDt (x : Nibble) : Statement (.ldVDt x) := by
  show (0xF#4 ++ x ++ 0x07#8 : Word) &&& 0xF00F#16 = 0xF007#16
  exact (mask_family_low _ _ (by decide)).2 ⟨(fields_byte 0xF#4 x 0x07#8).1.trans (by decide), (fields_byte_low 0xF#4 x 0x07#8).2.trans (by decide)⟩

theorem ldVK (x : Nibble) : Statement (.ldVK x) := by
  show (0xF#4 ++ x ++ 0x0A#8 : Word) &&& 0xF00F#16 = 0xF00A#16
  exact (mask_family_low _ _ (by decide)).2 ⟨(fields_byte 0xF#4 x 0x0A#8).1.trans (by decide), (fields_byte_low 0xF#4 x 0x0A#8).2.trans (by decide)⟩

theorem ldDtV (x : Nibble) : Statement (.ldDtV x) := by
  show (0xF#4 ++ x ++ 0x15#8 : Word) &&& 0xF0FF#16 = 0xF015#16
  exact (mask_family_byte _ _ (by decide)).2
    ⟨(fields_byte 0xF#4 x 0x15#8).1.trans (by decide), (fields_byte_low 0xF#4 x 0x15#8).1.trans (by decide), (fields_byte_low 0xF#4 x 0x15#8).2.trans (by decide)⟩

theorem addI (x : Nibble) : Statement (.addI x) := by
  show (0xF#4 ++ x ++ 0x1E#8 : Word) &&& 0xF00F#16 = 0xF00E#16
  exact (mask_family_low _ _ (by decide)).2 ⟨(fields_byte 0xF#4 x 0x1E#8).1.trans (by decide), (fields_byte_low 0xF#4 x 0x1E#8).2.trans (by decide)⟩

theorem ldF (x : Nibble) : Statement (.ldF x) := by
  show (0xF#4 ++ x ++ 0x29#8 : Word) &&& 0xF00F#16 = 0xF009#16
  exact (mask_family_low _ _ (by decide)).2 ⟨(fields_byte 0xF#4 x 0x29#8).1.trans (by decide), (fields_byte_low 0xF#4 x 0x29#8).2.trans (by decide)⟩

theorem ldB (x : Nibble) : Statement (.ldB x) := by
  show (0xF#4 ++ x ++ 0x33#8 : Word) &&& 0xF00F#16 = 0xF003#16
  exact (mask_family_low _ _ (by decide)).2 ⟨(fields_byte 0xF#4 x 0x33#8).1.trans (by decide), (fields_byte_low 0xF#4 x 0x33#8).2.trans (by decide)⟩

theorem ldMemV (x : Nibble) : Statement (.ldMemV x) := by
  show (0xF#4 ++ x ++ 0x55#8 : Word) &&& 0xF0FF#16 = 0xF055#16
  exact (mask_family_byte _ _ (by decide)).2
    ⟨(fields_byte 0xF#4 x 0x55#8).1.trans (by decide), (fields_byte_low 0xF#4 x 0x55#8).1.trans (by decide), (fields_byte_low 0xF#4 x 0x55#8).2.trans (by decide)⟩

theorem ldVMem (x : Nibble) : Statement (.ldVMem x) := by
  show (0xF#4 ++ x ++ 0x65#8 : Word) &&& 0xF0FF#16 = 0xF065#16
  exact (mask_family_byte _ _ (by decide)).2
    ⟨(fields_byte 0xF#4 x 0x65#8).1.trans (by decide), (fields_byte_low 0xF#4 x 0x65#8).1.trans (by decide), (fields_byte_low 0xF#4 x 0x65#8).2.trans (by decide)⟩

end Sys2Proof.Laws.TablePattern
end

