-- ==== Sys2Proof/Tests/Slice0.lean ====
section
/-! SUPPORT. Tests of the model on small states, one step each, with the results the spec's vectors give
(spec/95_test_vectors.md; each test names its vector), and a state that meets the hypotheses of each statement. -/

namespace Sys2Proof.Tests

open Sys2Proof Sys2Proof.Machine

set_option maxRecDepth 100000

/-! ### Helpers -/

/-- The state after reset with some registers set. -/
def withRegs (rs : List (Nibble × Byte)) : State := rs.foldl (fun s r => s.setReg r.1 r.2) State.reset

/-- The state in a result. -/
def next? : Result → Option State
  | .next s => some s
  | _ => none

/-- What `f` reads after one step of `s` with the word placed at PC. -/
def see {α : Type} (s : State) (w : Nat) (f : State → α) : Option α := (next? (step (s.withFetchWord 16 w))).map f

/-- A state whose PC is elsewhere. -/
def atPc (s : State) (pc : Word) : State := { s with pc := pc }

/-- A state whose index register is set. -/
def atI (s : State) (i : Word) : State := { s with i := i }

/-- A state with one stack entry and a stack pointer. -/
def withStack (s : State) (k : Fin 16) (w : Word) (sp : Fin 17) : State := { s with stack := s.stack.set k w, sp := sp }

/-- A state with one framebuffer byte set. -/
def withPixel (s : State) (p : Fin 2048) : State := { s with fb := s.fb.set p 0xFF#8 }

/-- A full sprite row at 0x300, with the index register on it. -/
def sprite : State := (atI .reset 0x300#16).storeBytes 0x300 [0xFF#8]

/-! ### Well-formedness: each check refuses an operand that does not fit (30_encoding.md R69, R89) -/

theorem test_wf_refuses_addr : Slot.addr.fits 0x1000 = false ∧ Slot.addr.fits 0xFFF = true := by decide

theorem test_wf_refuses_byte : Slot.byte.fits 256 = false ∧ Slot.byte.fits 255 = true := by decide

theorem test_wf_refuses_reg : Slot.reg.fits 16 = false ∧ Slot.reg.fits 15 = true := by decide

theorem test_wf_refuses_nibble : Slot.nibble.fits 16 = false ∧ Slot.nibble.fits 15 = true := by decide

/-- R87: `SHR Vx` puts 0 in `Y`; a written `Vy` goes into the field; `DB` refuses a value of more than 8 bits. -/
theorem test_assembler_shifts_and_data :
    assembleInstr .SHR [.v 5] = some (.shr 0x5#4 0x0#4) ∧ assembleInstr .SHL [.v 5, .v 6] = some (.shl 0x5#4 0x6#4) ∧
      assembleLine (.db [0xFF, 0x100]) = none := by decide

theorem test_assembler_refuses_wide_operands :
    assembleInstr .JP [.num 0x1000] = none ∧ assembleInstr .LD [.v 16, .num 0] = none ∧
      assembleInstr .LD [.v 0, .num 256] = none ∧ assembleInstr .DRW [.v 0, .v 1, .num 16] = none := by decide

/-- 95_test_vectors.md program P1. -/
theorem test_assemble_p1 :
    assemble [.instr .LD [.v 0, .num 0], .instr .LD [.v 1, .num 5], .instr .ADD [.v 0, .num 1],
      .instr .SE [.v 0, .num 5], .instr .JP [.num 0x204], .instr .JP [.num 0x20A]] =
    some [0x60#8, 0x00#8, 0x61#8, 0x05#8, 0x70#8, 0x01#8, 0x30#8, 0x05#8, 0x12#8, 0x04#8, 0x12#8, 0x0A#8] := by decide

/-- 95_test_vectors.md program P3, with its data line. -/
theorem test_assemble_p3 :
    assemble [.instr .LD [.i, .num 0x20C], .instr .DRW [.v 0, .v 1, .num 1], .db [0xFF, 0x00]] =
      some [0xA2#8, 0x0C#8, 0xD0#8, 0x11#8, 0xFF#8, 0x00#8] := by decide

/-! ### Decoding: a word of every instruction, bit by bit from 30_encoding.md R86 (family, X, Y, N) -/

theorem test_decode_cls : decode 0b0000_0000_1110_0000#16 = some .cls := by decide
theorem test_decode_ret : decode 0b0000_0000_1110_1110#16 = some .ret := by decide
theorem test_decode_jp : decode 0b0001_1010_1011_1100#16 = some (.jp 0xABC#12) := by decide
theorem test_decode_call : decode 0b0010_1010_1011_1100#16 = some (.call 0xABC#12) := by decide
theorem test_decode_seImm : decode 0b0011_0101_1010_0110#16 = some (.seImm 0x5#4 0xA6#8) := by decide
theorem test_decode_sneImm : decode 0b0100_0101_1010_0110#16 = some (.sneImm 0x5#4 0xA6#8) := by decide
theorem test_decode_seReg : decode 0b0101_0101_1010_0000#16 = some (.seReg 0x5#4 0xA#4) := by decide
theorem test_decode_ldImm : decode 0b0110_0101_1010_0110#16 = some (.ldImm 0x5#4 0xA6#8) := by decide
theorem test_decode_addImm : decode 0b0111_0101_1010_0110#16 = some (.addImm 0x5#4 0xA6#8) := by decide
theorem test_decode_ldReg : decode 0b1000_0101_1010_0000#16 = some (.ldReg 0x5#4 0xA#4) := by decide
theorem test_decode_orReg : decode 0b1000_0101_1010_0001#16 = some (.orReg 0x5#4 0xA#4) := by decide
theorem test_decode_andReg : decode 0b1000_0101_1010_0010#16 = some (.andReg 0x5#4 0xA#4) := by decide
theorem test_decode_xorReg : decode 0b1000_0101_1010_0011#16 = some (.xorReg 0x5#4 0xA#4) := by decide
theorem test_decode_addReg : decode 0b1000_0101_1010_0100#16 = some (.addReg 0x5#4 0xA#4) := by decide
theorem test_decode_sub : decode 0b1000_0101_1010_0101#16 = some (.sub 0x5#4 0xA#4) := by decide
theorem test_decode_shr : decode 0b1000_0101_1010_0110#16 = some (.shr 0x5#4 0xA#4) := by decide
theorem test_decode_subn : decode 0b1000_0101_1010_0111#16 = some (.subn 0x5#4 0xA#4) := by decide
theorem test_decode_shl : decode 0b1000_0101_1010_1110#16 = some (.shl 0x5#4 0xA#4) := by decide
theorem test_decode_sneReg : decode 0b1001_0101_1010_0000#16 = some (.sneReg 0x5#4 0xA#4) := by decide
theorem test_decode_ldI : decode 0b1010_1010_1011_1100#16 = some (.ldI 0xABC#12) := by decide
theorem test_decode_jpV0 : decode 0b1011_1010_1011_1100#16 = some (.jpV0 0xABC#12) := by decide
theorem test_decode_rnd : decode 0b1100_0101_1010_0110#16 = some (.rnd 0x5#4 0xA6#8) := by decide
theorem test_decode_drw : decode 0b1101_0101_1010_0110#16 = some (.drw 0x5#4 0xA#4 0x6#4) := by decide
theorem test_decode_skp : decode 0b1110_0101_1001_1110#16 = some (.skp 0x5#4) := by decide
theorem test_decode_sknp : decode 0b1110_0101_1010_0001#16 = some (.sknp 0x5#4) := by decide
theorem test_decode_ldVDt : decode 0b1111_0101_0000_0111#16 = some (.ldVDt 0x5#4) := by decide
theorem test_decode_ldVK : decode 0b1111_0101_0000_1010#16 = some (.ldVK 0x5#4) := by decide
theorem test_decode_ldDtV : decode 0b1111_0101_0001_0101#16 = some (.ldDtV 0x5#4) := by decide
theorem test_decode_addI : decode 0b1111_0101_0001_1110#16 = some (.addI 0x5#4) := by decide
theorem test_decode_ldF : decode 0b1111_0101_0010_1001#16 = some (.ldF 0x5#4) := by decide
theorem test_decode_ldB : decode 0b1111_0101_0011_0011#16 = some (.ldB 0x5#4) := by decide
theorem test_decode_ldMemV : decode 0b1111_0101_0101_0101#16 = some (.ldMemV 0x5#4) := by decide
theorem test_decode_ldVMem : decode 0b1111_0101_0110_0101#16 = some (.ldVMem 0x5#4) := by decide

/-- The table's numbering: one 16-bit word, shorter words filled with zeros above. -/
theorem test_decode_table_word :
    decodeTableWord 16 0xD123 = some (.drw 0x1#4 0x2#4 0x3#4) ∧ decodeTableWord 16 0x8128 = none := by decide

/-! ### Fetch, unknown words and halting (95_test_vectors.md 2.1) -/

/-- T-DEC-4: an unknown word with DT = 3. -/
theorem test_unknown_word_ticks :
    see { State.reset with dt := 3#8 } 0x8008 (fun t => (t.diags, t.pc, t.dt)) =
      some ([.unknownOpcode 0x8008#16 0x200#16], 0x202#16, 2#8) := by decide

/-- T-FET-1: an odd PC, with DT = 5 and OPC = 0x1201. -/
theorem test_fetch_misaligned :
    (next? (step { State.reset with pc := 0x201#16, dt := 5#8, opc := 0x1201#16 })).map
      (fun t => (t.flt, t.pc, t.opc, t.dt)) =
      some (some ⟨.fetchMisaligned, 0x201⟩, 0x201#16, 0x1201#16, 5#8) := by decide

/-- T-FET-2 and T-FET-3: PC past the end, and the odd check first. -/
theorem test_fetch_out_of_range :
    (next? (step (atPc .reset 0x1000#16))).map (·.flt) = some (some ⟨.fetchOutOfRange, 0x1000⟩) ∧
    (next? (step (atPc .reset 0xFFF#16))).map (·.flt) = some (some ⟨.fetchMisaligned, 0xFFF⟩) := by decide

/-- T-FET-4: the last word of memory is fetched. -/
theorem test_fetch_last_word :
    see (atPc .reset 0xFFE#16) 0x00E0 (fun t => (t.pc, t.df, t.flt)) = some (0x1000#16, true, none) := by decide

/-- T-HALT-1. -/
theorem test_halted_step :
    (next? (step { State.reset with flt := some ⟨.fetchOutOfRange, 0x1000⟩, pc := 0x1000#16, dt := 5#8 })).map
      (fun t => (t.dt, t.pc, t.diags)) = some (5#8, 0x1000#16, []) := by decide

/-! ### Display (95_test_vectors.md 2.2) -/

/-- T-CLS-1. -/
theorem test_cls :
    see (withPixel (withRegs [(0xF#4, 3#8)]) 5) 0x00E0 (fun t => (t.pixel 5, t.df, t.vf, t.pc)) =
      some (0x00#8, true, 3#8, 0x202#16) := by decide

/-- T-DRW-4: the last pixel is set, the seven columns past the buffer are dropped, and none wraps to the start. -/
theorem test_drw_corner_dropped :
    see ((atI (withRegs [(0#4, 63#8), (1#4, 31#8)]) 0x300#16).storeBytes 0x300 [0xFF#8]) 0xD011
      (fun t => ([t.pixel 0, t.pixel 2046, t.pixel 2047], t.vf, t.df)) =
      some ([0x00#8, 0x00#8, 0xFF#8], 0x00#8, true) := by decide

/-- T-DRW-9: the origin is read before VF is written. -/
theorem test_drw_vf_origin :
    see ((atI (withRegs [(0xF#4, 5#8)]) 0x300#16).storeBytes 0x300 [0xFF#8]) 0xDF11
      (fun t => ([t.pixel 4, t.pixel 5, t.pixel 12, t.pixel 13], t.vf)) =
      some ([0x00#8, 0xFF#8, 0xFF#8, 0x00#8], 0x00#8) := by decide

/-- T-DRW-2: the origin wraps, the row bleeds into the next one. -/
theorem test_pixel_index_bleeds : pixelIndex (124 % 64) (33 % 32) 0 4 = 128 ∧ pixelIndex 60 1 0 3 = 127 := by decide

/-- T-DRW-6 and T-DRW-7: bit 7 is column 0, and only a fully-set pixel collides. -/
theorem test_toggle_pixel_collides :
    (togglePixel ((withPixel .reset 0).fb, false) 0).2 = true ∧ (togglePixel ((withPixel .reset 0).fb, false) 1).2 = false ∧
      rowColumns 0x80#8 = [0] ∧ rowColumns 0x40#8 = [1] := by decide

/-! ### Control flow (95_test_vectors.md 2.3) -/

/-- T-RET-1. -/
theorem test_ret :
    see (atPc (withStack .reset 0 0x206#16 1) 0x20C#16) 0x00EE (fun t => (t.sp.val, t.pc, t.stack[0])) =
      some (0, 0x206#16, 0x206#16) := by decide

/-- T-RET-2. -/
theorem test_ret_underflow :
    see (atPc .reset 0x300#16) 0x00EE (fun t => (t.diags, t.sp.val, t.pc)) =
      some ([.stackUnderflow 0x00EE#16 0x300#16], 0, 0x302#16) := by decide

/-- T-JP-1. -/
theorem test_jp : see .reset 0x1234 (·.pc) = some 0x234#16 := by decide

/-- T-CALL-1. -/
theorem test_call :
    see (atPc .reset 0x204#16) 0x2208 (fun t => (t.stack[0], t.sp.val, t.pc)) = some (0x206#16, 1, 0x208#16) := by decide

/-- T-CALL-2, the 17th call. -/
theorem test_call_overflow :
    see (withStack .reset 15 0x202#16 16) 0x2200 (fun t => (t.diags, t.sp.val, t.pc, t.stack[15])) =
      some ([.stackOverflow 0x2200#16 0x200#16], 16, 0x202#16, 0x202#16) := by decide

/-- T-SE-1 and T-SE-2. -/
theorem test_seImm :
    see (atPc (withRegs [(3#4, 5#8)]) 0x206#16) 0x3305 (·.pc) = some 0x20A#16 ∧
    see (atPc (withRegs [(3#4, 5#8)]) 0x206#16) 0x3306 (·.pc) = some 0x208#16 := by decide

/-- T-SNE-1 and T-SNE-2. -/
theorem test_sneImm :
    see (atPc (withRegs [(3#4, 5#8)]) 0x206#16) 0x4306 (·.pc) = some 0x20A#16 ∧
    see (atPc (withRegs [(3#4, 5#8)]) 0x206#16) 0x4305 (·.pc) = some 0x208#16 := by decide

/-- T-SER-1 and T-SER-2. -/
theorem test_seReg :
    see (withRegs [(1#4, 7#8), (2#4, 7#8)]) 0x5120 (·.pc) = some 0x204#16 ∧
    see (withRegs [(1#4, 7#8), (2#4, 8#8)]) 0x5120 (·.pc) = some 0x202#16 := by decide

/-- T-SNR-1 and T-SNR-2. -/
theorem test_sneReg :
    see (withRegs [(1#4, 7#8), (2#4, 8#8)]) 0x9120 (·.pc) = some 0x204#16 ∧
    see (withRegs [(4#4, 9#8)]) 0x9440 (·.pc) = some 0x202#16 := by decide

/-- T-JPO-2 and T-JPO-3. -/
theorem test_jpV0 :
    see (withRegs [(0#4, 2#8), (3#4, 8#8)]) 0xB300 (·.pc) = some 0x302#16 ∧
    see (withRegs [(0#4, 0xFF#8)]) 0xBFFF (·.pc) = some 0x10FE#16 := by decide

/-! ### Registers and arithmetic (95_test_vectors.md 2.4) -/

/-- T-LDI8-1 and T-LDI8-2. -/
theorem test_ldImm :
    see .reset 0x6005 (·.reg 0#4) = some 5#8 ∧ see (withRegs [(0xF#4, 1#8)]) 0x6F42 (·.vf) = some 0x42#8 := by decide

/-- T-ADDI8-2 and T-ADDI8-3. -/
theorem test_addImm :
    see (withRegs [(0#4, 0xFF#8), (0xF#4, 7#8)]) 0x7001 (fun t => (t.reg 0#4, t.vf)) = some (0x00#8, 7#8) ∧
    see (withRegs [(0xF#4, 0xFE#8)]) 0x7F03 (·.vf) = some 0x01#8 := by decide

/-- T-MOV-1. -/
theorem test_ldReg :
    see (withRegs [(2#4, 0x33#8)]) 0x8120 (fun t => (t.reg 1#4, t.reg 2#4)) = some (0x33#8, 0x33#8) := by decide

/-- T-OR-1. -/
theorem test_orReg :
    see (withRegs [(1#4, 0xF0#8), (2#4, 0x0F#8), (0xF#4, 5#8)]) 0x8121 (fun t => (t.reg 1#4, t.vf)) =
      some (0xFF#8, 5#8) := by decide

/-- T-AND-1. -/
theorem test_andReg :
    see (withRegs [(1#4, 0xF0#8), (2#4, 0x3C#8), (0xF#4, 5#8)]) 0x8122 (fun t => (t.reg 1#4, t.vf)) =
      some (0x30#8, 5#8) := by decide

/-- T-XOR-1. -/
theorem test_xorReg :
    see (withRegs [(1#4, 0xF0#8), (2#4, 0x3C#8), (0xF#4, 5#8)]) 0x8123 (fun t => (t.reg 1#4, t.vf)) =
      some (0xCC#8, 5#8) := by decide

/-- T-ADD-1 and T-ADD-5 (VF as the destination). -/
theorem test_addReg :
    see (withRegs [(1#4, 0xFF#8), (2#4, 1#8)]) 0x8124 (fun t => (t.reg 1#4, t.vf)) = some (0x00#8, 1#8) ∧
    see (withRegs [(0xF#4, 0xFF#8), (2#4, 1#8)]) 0x8F24 (·.vf) = some 1#8 := by decide

/-- T-SUB-2 and T-SUB-3. -/
theorem test_sub :
    see (withRegs [(1#4, 5#8), (2#4, 5#8), (0xF#4, 1#8)]) 0x8125 (fun t => (t.reg 1#4, t.vf)) = some (0x00#8, 0#8) ∧
    see (withRegs [(1#4, 5#8), (2#4, 7#8)]) 0x8125 (fun t => (t.reg 1#4, t.vf)) = some (0xFE#8, 0#8) := by decide

/-- T-SHR-3 and T-SHR-4. -/
theorem test_shr :
    see (withRegs [(1#4, 4#8), (2#4, 0xFF#8)]) 0x8126 (fun t => (t.reg 1#4, t.vf, t.reg 2#4)) = some (2#8, 0#8, 0xFF#8) ∧
    see (withRegs [(0xF#4, 3#8)]) 0x8F06 (·.vf) = some 1#8 := by decide

/-- T-SUBN-1 and T-SUBN-3. -/
theorem test_subn :
    see (withRegs [(1#4, 5#8), (2#4, 7#8)]) 0x8127 (fun t => (t.reg 1#4, t.vf)) = some (2#8, 1#8) ∧
    see (withRegs [(1#4, 7#8), (2#4, 5#8)]) 0x8127 (fun t => (t.reg 1#4, t.vf)) = some (0xFE#8, 0#8) := by decide

/-- T-SHL-1 and T-SHL-3. -/
theorem test_shl :
    see (withRegs [(3#4, 0x81#8)]) 0x830E (fun t => (t.reg 3#4, t.vf)) = some (2#8, 1#8) ∧
    see (withRegs [(0xF#4, 0x80#8)]) 0x8F0E (·.vf) = some 1#8 := by decide

/-- T-RND-3: the byte drawn is a free value, so the test says which one, not what it is. -/
theorem test_rnd :
    see .reset 0xC1FF (fun t => (t.reg 1#4, t.randDraws)) = some (Config.rand 0 &&& 0xFF#8, 1) := rfl

/-! ### Index register and memory (95_test_vectors.md 2.5) -/

/-- T-LDI-1. -/
theorem test_ldI : see .reset 0xA300 (·.i) = some 0x300#16 := by decide

/-- T-ADDI-3 and T-ADDI-5. -/
theorem test_addI :
    see (atI (withRegs [(1#4, 0x0F#8)]) 0xFF0#16) 0xF11E (fun t => (t.i, t.vf)) = some (0xFFF#16, 0#8) ∧
    see (atI (withRegs [(1#4, 2#8)]) 0xFFFF#16) 0xF11E (fun t => (t.i, t.vf)) = some (1#16, 1#8) := by decide

/-- T-FNT-1 and T-FNT-3. -/
theorem test_ldF :
    see (withRegs [(0#4, 0x0A#8)]) 0xF029 (·.i) = some 0x082#16 ∧
    see (withRegs [(0#4, 0xFF#8)]) 0xF029 (·.i) = some 0x54B#16 := by decide

/-- T-BCD-3. -/
theorem test_ldB :
    see (atI (withRegs [(0#4, 0x9C#8)]) 0x300#16) 0xF033 (fun t => ([t.byteAt 0x300, t.byteAt 0x301, t.byteAt 0x302], t.i)) =
      some ([1#8, 5#8, 6#8], 0x300#16) := by decide

/-- T-BCD-5: the fault, with nothing written. -/
theorem test_ldB_faults :
    see (atI (withRegs [(0#4, 7#8)]) 0xFFE#16) 0xF033 (fun t => (t.flt, t.pc, t.mem.map (·.1))) =
      some (some ⟨.addressOutOfRange, 0x1000⟩, 0x200#16, [0x200, 0x201]) := by decide

/-- T-DUMP-1. -/
theorem test_ldMemV :
    see (atI (withRegs [(0#4, 1#8), (1#4, 2#8), (2#4, 3#8)]) 0x300#16) 0xF255
      (fun t => ([t.byteAt 0x300, t.byteAt 0x301, t.byteAt 0x302], t.i)) =
      some ([1#8, 2#8, 3#8], 0x303#16) := by decide

/-- T-DUMP-3. -/
theorem test_ldMemV_faults :
    see (atI .reset 0xFF8#16) 0xFF55 (fun t => (t.flt, t.i, t.pc)) =
      some (some ⟨.addressOutOfRange, 0x1000⟩, 0xFF8#16, 0x200#16) := by decide

/-- T-LOAD-1. -/
theorem test_ldVMem :
    see ((atI .reset 0x300#16).storeBytes 0x300 [1#8, 5#8, 6#8]) 0xF265
      (fun t => ([t.reg 0#4, t.reg 1#4, t.reg 2#4], t.i)) =
      some ([1#8, 5#8, 6#8], 0x303#16) := by decide

/-- T-LOAD-3. -/
theorem test_ldVMem_faults :
    see (atI .reset 0x1000#16) 0xF065 (fun t => (t.flt, t.reg 0#4, t.pc)) =
      some (some ⟨.addressOutOfRange, 0x1000⟩, 0x00#8, 0x200#16) := by decide

/-! ### Keypad and delay timer (95_test_vectors.md 2.6) -/

/-- T-SKP-1 and T-SKP-3. -/
theorem test_skp :
    see ((withRegs [(1#4, 0x0A#8)]).keyIn 0x0400#16) 0xE19E (·.pc) = some 0x204#16 ∧
    see { withRegs [(1#4, 0x10#8)] with dt := 4#8 } 0xE19E (fun t => (t.flt, t.pc, t.dt)) =
      some (some ⟨.keyIndexOutOfRange, 0x10⟩, 0x200#16, 4#8) := by decide

/-- T-SKNP-2 and T-SKNP-3. -/
theorem test_sknp :
    see ((withRegs [(1#4, 0x0A#8)]).keyIn 0x0400#16) 0xE1A1 (·.pc) = some 0x202#16 ∧
    see (withRegs [(1#4, 0xFF#8)]) 0xE1A1 (fun t => (t.flt, t.pc)) =
      some (some ⟨.keyIndexOutOfRange, 0xFF⟩, 0x200#16) := by decide

/-- T-GDT-1. -/
theorem test_ldVDt :
    see { State.reset with dt := 4#8 } 0xF507 (fun t => (t.reg 5#4, t.dt)) = some (4#8, 3#8) := by decide

/-- T-WK-1. -/
theorem test_ldVK_stalls :
    see { atPc (withRegs [(3#4, 9#8)]) 0x210#16 with dt := 2#8 } 0xF30A (fun t => (t.pc, t.reg 3#4, t.dt)) =
      some (0x210#16, 9#8, 1#8) := by decide

/-- T-WK-3. -/
theorem test_ldVK_lowest :
    see ((atPc .reset 0x210#16).keyIn 0x0204#16) 0xF30A (fun t => (t.reg 3#4, t.pc)) = some (2#8, 0x212#16) := by decide

/-- T-SDT-1 and T-SDT-2. -/
theorem test_ldDtV :
    see (withRegs [(4#4, 5#8)]) 0xF415 (·.dt) = some 4#8 ∧
    see { withRegs [(4#4, 0#8)] with dt := 9#8 } 0xF415 (·.dt) = some 0#8 := by decide

/-! ### Reset and load (95_test_vectors.md 2.7) -/

/-- T-RST-2, for every font: the byte is `FONT[0]` again, and the next glyph's too. -/
theorem test_reset_seeds_font :
    (State.reset.storeBytes 0x50 [0x00#8]).hostReset.byteAt 0x50 = Config.font 0 ∧
      (State.reset.storeBytes 0x9F [0x00#8, 0x11#8]).hostReset.byteAt 0x9F = Config.font 79 ∧
      (State.reset.storeBytes 0x9F [0x00#8, 0x11#8]).hostReset.byteAt 0xA0 = 0x11#8 := ⟨rfl, rfl, rfl⟩

/-- T-RST-2 as written, under the default font. -/
theorem test_reset_seeds_default_font (h : FontIsDefault) :
    (State.reset.storeBytes 0x50 [0x00#8]).hostReset.byteAt 0x50 = 0xF0#8 := h 0 (by decide)

/-- 20_memory.md R56: 80 bytes, glyph A at offset 50, and no bit to the right of the four columns. -/
theorem test_default_font :
    defaultFont.length = 80 ∧ (defaultFont.drop 50).take 5 = [0xF0#8, 0x90#8, 0xF0#8, 0x90#8, 0x90#8] ∧
      ∀ b ∈ defaultFont, b &&& 0x0F#8 = 0x00#8 := by decide

/-- T-RST-1 on a halted state. -/
theorem test_reset_clears_fault :
    (State.hostReset { State.reset with flt := some ⟨.fetchOutOfRange, 0x1000⟩, pc := 0x1000#16 }).flt = none ∧
      (State.hostReset { State.reset with pc := 0x1000#16 }).pc = 0x200#16 := by decide

/-- T-LDP-1 and T-LDP-2: the largest image and one byte more. -/
theorem test_load_too_large :
    (State.reset.load (List.replicate 3584 0x5A#8)).loadError = false ∧
      (State.reset.load (List.replicate 3585 0x5A#8)).loadError = true ∧
      (State.reset.load (List.replicate 3585 0x5A#8)).mem = [] := by
  simp [State.load, Config.maxImage, State.addDiag, State.reset]

/-- R34, R133: the event of a rejected load carries OPC, here the word of the cycle before it. -/
theorem test_load_too_large_event :
    (see .reset 0x6005 (fun t => ((t.load (List.replicate 3585 0x5A#8)).diags, t.opc))) =
      some ([.programTooLarge 0x6005#16 (Config.loadEventPc 0)], 0x6005#16) := rfl

/-- T-LDP-4. -/
theorem test_load_keeps_the_rest :
    let s := (State.reset.load [0x12#8, 0x00#8, 0x34#8, 0x56#8]).restart [0x00#8, 0xE0#8]
    (s.byteAt 0x200, s.byteAt 0x201, s.byteAt 0x202, s.byteAt 0x203, s.loadError) =
      (0x00#8, 0xE0#8, 0x34#8, 0x56#8, false) := by decide

/-- R47: the fault and diagnostic ports. -/
theorem test_fault_port :
    (next? (step (atPc .reset 0x201#16))).map (·.faultPort) = some (some (0, 0x201)) ∧
      see .reset 0x0123 (·.diagSince .reset) = some [.unknownOpcode 0x0123#16 0x200#16] := by decide

/-! ### A state that meets the hypotheses of each statement, at the boundary of each clause -/

/-- The word placed at PC of a state. -/
def holding (w : Nat) (s : State) : State := s.withFetchWord 16 w

/-- A result that is a next state is that state. -/
theorem eq_next_of_next? {r : Result} {t : State} (h : next? r = some t) : r = .next t := by
  cases r with
  | next u => exact congrArg Host.Outcome.next (Option.some.inj h)
  | fault _ => exact nomatch h
  | refused _ => exact nomatch h

/-- A test of the next state of a result, from its evaluation. -/
theorem next_of_eval (r : Result) (P : State → Prop) [DecidablePred P]
    (h : (next? r).any (fun t => decide (P t)) = true) : ∃ t, r = .next t ∧ P t := by
  obtain ⟨t, ht, hp⟩ := (Option.any_eq_true _ _).1 h
  exact ⟨t, eq_next_of_next? ht, of_decide_eq_true hp⟩

theorem test_meets_decode_of_encode : (Instr.jp 0xFFF#12).wellFormed = true := by decide

theorem test_meets_opcode_table :
    decode 0xD123#16 = some (.drw 0x1#4 0x2#4 0x3#4) ∧ 0x0230#16 &&& rowMask .cls = rowMatch .cls := by decide

theorem test_meets_two_bytes : ([] : List Byte).length < 2 ∧ [0x12#8].length < 2 := by decide

/-- The words at the two ends of memory, and the decoded word. -/
theorem test_meets_step_runs :
    let s := holding 0x00E0 (atPc .reset 0xFFE#16)
    let u := holding 0x1234 (atPc .reset 0x0000#16)
    (s.flt = none ∧ s.pc.toNat % 2 = 0 ∧ s.pc.toNat ≤ 0xFFE ∧
      (0x00E0#16).toNat = (s.byteAt s.pc.toNat).toNat * 256 + (s.byteAt (s.pc.toNat + 1)).toNat ∧
      decode 0x00E0#16 = some .cls) ∧
    (u.flt = none ∧ u.pc.toNat % 2 = 0 ∧ u.pc.toNat ≤ 0xFFE ∧
      (0x1234#16).toNat = (u.byteAt u.pc.toNat).toNat * 256 + (u.byteAt (u.pc.toNat + 1)).toNat ∧
      decode 0x1234#16 = some (.jp 0x234#12)) := by decide

theorem test_meets_unknown_word : (holding 0x0123 .reset).Fetches 0x0123#16 ∧ decode 0x0123#16 = none :=
  ⟨⟨rfl, rfl⟩, rfl⟩

theorem test_meets_fetch_checks :
    (atPc .reset 0xFFF#16).flt = none ∧ (atPc .reset 0xFFF#16).pc.toNat % 2 = 1 ∧
      (atPc .reset 0x1000#16).pc.toNat % 2 ≠ 1 ∧ 0xFFE < (atPc .reset 0x1000#16).pc.toNat ∧
      (atPc .reset 0xFFE#16).pc.toNat % 2 ≠ 1 ∧ ¬0xFFE < (atPc .reset 0xFFE#16).pc.toNat := by decide

/-- A halted state. -/
def halted : State := { State.reset with flt := some ⟨.fetchOutOfRange, 0x1000⟩, pc := 0x1000#16, dt := 5#8 }

theorem test_meets_halted : halted.flt ≠ none := by decide

/-- A key written before a cycle, and a draw flag cleared before the next, reach a halted core and nothing more. -/
theorem test_halted_run :
    (next? (hostRun [[.keys 0x8000#16], [.clearDrawFlag]] halted)).map (fun t => (t.key, t.dt, t.pc)) =
      some (0x8000#16, 5#8, 0x1000#16) := by decide

/-- A step with no event, one with a diagnostic, one with a fault. -/
theorem test_meets_one_event :
    (∃ t, step (holding 0x6005 .reset) = .next t ∧ t.flt = none ∧ t.diags = []) ∧
    (∃ t, step (holding 0x00EE .reset) = .next t ∧ t.diags = [.stackUnderflow 0x00EE#16 0x200#16]) ∧
    (∃ t, step (atPc .reset 0x201#16) = .next t ∧ t.flt ≠ none) :=
  ⟨next_of_eval _ _ (by decide), next_of_eval _ _ (by decide), next_of_eval _ _ (by decide)⟩

/-- A faulting instruction whose fetch succeeded, and a failed fetch. -/
theorem test_meets_precise_fault :
    ((holding 0xF065 (atI .reset 0x1000#16)).Fetches 0xF065#16 ∧
      ∃ t, step (holding 0xF065 (atI .reset 0x1000#16)) = .next t ∧ t.flt ≠ none) ∧
    ((atPc .reset 0x201#16).flt = none ∧ (∀ w, (atPc .reset 0x201#16).fetch ≠ .ok w) ∧
      ∃ t, step (atPc .reset 0x201#16) = .next t ∧ t.flt ≠ none) :=
  ⟨⟨⟨rfl, rfl⟩, next_of_eval _ _ (by decide)⟩,
    ⟨rfl, (fun w h => nomatch (show Except.error _ = Except.ok w from h)), next_of_eval _ _ (by decide)⟩⟩

/-- A cycle that sets the timer, one that does not, a halted and a faulting one, instructions that do not read it (set-delay
among them), and a port operation. -/
theorem test_meets_timer_writers :
    ((holding 0xF415 (withRegs [(4#4, 5#8)])).Fetches 0xF415#16 ∧
      ∃ t, step (holding 0xF415 (withRegs [(4#4, 5#8)])) = .next t ∧ t.flt = none) ∧
    ((holding 0x6005 .reset).Fetches 0x6005#16 ∧ ∃ t, step (holding 0x6005 .reset) = .next t ∧ t.flt = none) ∧
    (∃ t, step halted = .next t ∧ halted.flt ≠ none) ∧
    (∃ t, step (holding 0xF065 (atI .reset 0x1000#16)) = .next t ∧ t.flt ≠ none) ∧
    ((∀ x, Instr.cls ≠ .ldVDt x) ∧ ∃ t, exec .cls .reset = .next t) ∧
    ((∀ x, Instr.ldDtV 4#4 ≠ .ldVDt x) ∧ ∃ t, exec (.ldDtV 4#4) .reset = .next t) ∧
    (PortOp.load [] ≠ .step ∧ PortOp.load [] ≠ .reset ∧ ∃ t, (PortOp.load []).apply .reset = .next t) :=
  ⟨⟨⟨rfl, rfl⟩, next_of_eval _ _ (by decide)⟩, ⟨⟨rfl, rfl⟩, next_of_eval _ _ (by decide)⟩,
    ⟨_, rfl, by decide⟩, next_of_eval _ _ (by decide), ⟨nofun, _, rfl⟩, ⟨nofun, _, rfl⟩, by decide, by decide, _, rfl⟩

/-- A jump to itself, with the timer at 1. -/
def spin : State := holding 0x1200 { State.reset with dt := 1#8 }

/-- A session with a key write, a draw-flag clear and a load before its cycle: no reset, no set-delay, no fault. -/
theorem test_meets_countdown :
    let os : List PortOp := [.keyIn 0x0001#16, .drawFlagClear, .load [], .step]
    .reset ∉ os ∧ (∃ t, session os spin = .next t ∧ t.flt = none) ∧
      ∀ (before after : List PortOp) (u : State) (x : Nibble), os = before ++ .step :: after →
        session before spin = .next u → ¬u.Executes (.ldDtV x) := by
  refine ⟨by decide, next_of_eval _ _ (by decide), ?_⟩
  rintro before after u x e h ⟨w, ⟨_, hw⟩, hd⟩
  rcases before with _ | ⟨a, _ | ⟨b, _ | ⟨c, _ | ⟨d, before⟩⟩⟩⟩ <;> simp at e
  obtain ⟨rfl, rfl, rfl, _⟩ := e
  cases h
  cases (show Except.ok 0x1200#16 = Except.ok w from hw)
  exact nomatch (show some (Instr.jp 0x200#12) = some (.ldDtV x) from hd)

/-- A jump to the next word, which jumps to itself. -/
def toSpin : State := (holding 0x1202 .reset).storeBytes 0x202 [0x12#8, 0x02#8]

/-- The first fetch from the last word of memory, at the first cycle of a run, and from 0x202 at the second, with keys written
on the way. -/
theorem test_meets_first_fetch :
    (∃ u t, AfterCycles 0 [] (holding 0x1FFE (atPc .reset 0xFFE#16)) u ∧
      FirstFetchAt 0xFFE#16 ([] ++ [[.keys 0x0001#16]]) (holding 0x1FFE (atPc .reset 0xFFE#16)) t) ∧
    (∃ u t, AfterCycles 1 [[]] toSpin u ∧
      FirstFetchAt 0x202#16 ([[]] ++ [[.keys 0x0001#16, .clearDrawFlag]]) toSpin t) := by
  refine ⟨?_, ?_⟩
  · obtain ⟨t, ht, hf⟩ := next_of_eval (hostRun [[.keys 0x0001#16]] (holding 0x1FFE (atPc .reset 0xFFE#16)))
      (fun t => t.flt = none) (by decide)
    exact ⟨_, t, ⟨rfl, rfl⟩, [], [.keys 0x0001#16], _, rfl, ⟨rfl, rfl⟩, rfl, nofun, ⟨rfl, ht⟩, hf⟩
  · obtain ⟨u, hu, hp⟩ := next_of_eval (hostRun [[]] toSpin) (fun u => u.pc = 0x202#16) (by decide)
    obtain ⟨t, ht, hf⟩ :=
      next_of_eval (hostRun [[], [.keys 0x0001#16, .clearDrawFlag]] toSpin) (fun t => t.flt = none) (by decide)
    refine ⟨u, t, ⟨rfl, hu⟩, [[]], [.keys 0x0001#16, .clearDrawFlag], u, rfl, ⟨rfl, hu⟩, hp, ?_, ⟨rfl, ht⟩, hf⟩
    intro j hj v hv
    obtain rfl : j = 0 := Nat.lt_one_iff.1 hj
    rw [(afterCycles_zero _ _).1 hv]
    decide

/-- At that first fetch OPC becomes the word that stood at 0x202. -/
theorem test_first_fetch_word :
    (next? (hostRun [[], [.keys 0x0001#16, .clearDrawFlag]] toSpin)).map (·.opc) = some 0x1202#16 := by decide

theorem test_meets_pc_table :
    (holding 0x3000 (atPc .reset 0xFFE#16)).Fetches 0x3000#16 ∧
      ∃ t, step (holding 0x3000 (atPc .reset 0xFFE#16)) = .next t ∧ t.flt = none :=
  ⟨⟨rfl, rfl⟩, next_of_eval _ _ (by decide)⟩

/-- A fetch, a cycle without one, a cycle with a diagnostic, and a rejected load. -/
theorem test_meets_opc :
    ((holding 0x1234 .reset).Fetches 0x1234#16 ∧ ∃ t, step (holding 0x1234 .reset) = .next t) ∧
    ((∀ w, ¬halted.Fetches w) ∧ ∃ t, step halted = .next t) ∧
    ((holding 0x0123 .reset).Fetches 0x0123#16 ∧
      ∃ t, step (holding 0x0123 .reset) = .next t ∧ t.diags = [] ++ [.unknownOpcode 0x0123#16 0x200#16]) ∧
    (∃ d, (State.reset.load (List.replicate 3585 0x5A#8)).diags = State.reset.diags ++ [d]) :=
  ⟨⟨⟨rfl, rfl⟩, _, rfl⟩, ⟨(fun _ h => nomatch (show some _ = none from h.1)), _, rfl⟩,
    ⟨⟨rfl, rfl⟩, next_of_eval _ _ (by decide)⟩, _, rfl⟩

theorem test_meets_keypad :
    (∀ x, Instr.cls ≠ .skp x ∧ Instr.cls ≠ .sknp x ∧ Instr.cls ≠ .ldVK x) ∧ ∃ t, exec .cls .reset = .next t :=
  ⟨fun _ => ⟨nofun, nofun, nofun⟩, _, rfl⟩

theorem test_meets_draw_flag :
    (State.reset.flt = none ∧ ∃ t, exec (.drw 0#4 1#4 5#4) (atI .reset 0x50#16) = .next t ∧ t.flt = none) ∧
    (∃ t, step (holding 0x6005 { State.reset with df := true }) = .next t) :=
  ⟨⟨rfl, next_of_eval _ _ (by decide)⟩, _, rfl⟩

theorem test_meets_parts :
    State.reset.flt = none ∧ (∃ t, exec (.ldB 0#4) (atI .reset 0xFFD#16) = .next t ∧ t.flt = none) ∧
    (∃ t, exec (.ldB 0#4) (atI .reset 0xFFE#16) = .next t ∧ t.flt ≠ none) :=
  ⟨rfl, next_of_eval _ _ (by decide), next_of_eval _ _ (by decide)⟩

theorem test_meets_registers_written :
    (∃ t, exec (.ldVMem 2#4) (atI .reset 0x50#16) = .next t) ∧ ¬WritesReg 3#4 (.ldVMem 2#4) :=
  ⟨⟨_, rfl⟩, by simp [WritesReg]⟩

/-- A word of each pattern, its don't-care bits set. -/
theorem test_meets_patterns :
    0x6FFF#16 &&& 0xF000#16 = 0x6000#16 ∧ 0x8FF0#16 &&& 0xF00F#16 = 0x8000#16 ∧ 0x7FFF#16 &&& 0xF000#16 = 0x7000#16 ∧
    0x8FF1#16 &&& 0xF00F#16 = 0x8001#16 ∧ 0x8FF2#16 &&& 0xF00F#16 = 0x8002#16 ∧ 0x8FF3#16 &&& 0xF00F#16 = 0x8003#16 ∧
    0x8FF4#16 &&& 0xF00F#16 = 0x8004#16 ∧ 0x8FF5#16 &&& 0xF00F#16 = 0x8005#16 ∧ 0x8FF7#16 &&& 0xF00F#16 = 0x8007#16 ∧
    0x8FF6#16 &&& 0xF00F#16 = 0x8006#16 ∧ 0x8FFE#16 &&& 0xF00F#16 = 0x800E#16 ∧ 0x1FFF#16 &&& 0xF000#16 = 0x1000#16 ∧
    0xBFFF#16 &&& 0xF000#16 = 0xB000#16 ∧ 0x3FFF#16 &&& 0xF000#16 = 0x3000#16 ∧ 0x4FFF#16 &&& 0xF000#16 = 0x4000#16 ∧
    0x5FFF#16 &&& 0xF000#16 = 0x5000#16 ∧ 0x9FFF#16 &&& 0xF000#16 = 0x9000#16 ∧ 0xAFFF#16 &&& 0xF000#16 = 0xA000#16 ∧
    0xFFF9#16 &&& 0xF00F#16 = 0xF009#16 ∧ 0xFFFE#16 &&& 0xF00F#16 = 0xF00E#16 ∧ 0xFFF7#16 &&& 0xF00F#16 = 0xF007#16 ∧
    0xFF15#16 &&& 0xF0FF#16 = 0xF015#16 ∧ 0x0FF0#16 &&& 0xF00F#16 = 0x0000#16 := by decide

/-- The two states after a reset, and the last font byte. -/
theorem test_meets_reset : (State.reset = halted.hostReset ∨ State.reset = State.reset) ∧ 79 < 80 :=
  ⟨.inr rfl, by decide⟩

/-- A destination that is not VF. -/
theorem test_meets_not_vf : (0xE#4 : Nibble) ≠ 0xF#4 := by decide

/-- The flag-writing instructions on VF itself, and a draw that sets a pixel over a set one, and over none. -/
theorem test_meets_flag_table :
    (∃ t, exec (.addReg 0xF#4 0#4) .reset = .next t) ∧ (∃ t, exec (.sub 0xF#4 0#4) .reset = .next t) ∧
    (∃ t, exec (.shr 0xF#4 0#4) .reset = .next t) ∧ (∃ t, exec (.subn 0xF#4 0#4) .reset = .next t) ∧
    (∃ t, exec (.shl 0xF#4 0#4) .reset = .next t) ∧ (∃ t, exec (.addI 0xF#4) .reset = .next t) ∧
    (∃ t, exec (.drw 0#4 1#4 1#4) (withPixel sprite 0) = .next t ∧ t.flt = none) :=
  ⟨⟨_, rfl⟩, ⟨_, rfl⟩, ⟨_, rfl⟩, ⟨_, rfl⟩, ⟨_, rfl⟩, ⟨_, rfl⟩, next_of_eval _ _ (by decide)⟩

/-- The last free stack entry, and the full stack. -/
theorem test_meets_call :
    (withStack .reset 0 0x202#16 15).sp.val < 16 ∧ (withStack .reset 0 0x202#16 16).sp.val = 16 := by decide

/-- The full stack, one entry, and the empty stack. -/
theorem test_meets_return :
    (withStack .reset 15 0x202#16 16).sp.val = (15 : Fin 16).val + 1 ∧
      (withStack .reset 0 0x202#16 1).sp.val = (0 : Fin 16).val + 1 ∧ State.reset.sp.val = 0 := by decide

theorem test_meets_call_then_return :
    ∃ t u : State, (withStack .reset 0 0x202#16 15).sp.val < 16 ∧
      exec (.call 0x300#12) (withStack .reset 0 0x202#16 15) = .next t ∧ u.stack = t.stack ∧ u.sp = t.sp :=
  ⟨_, _, by decide, rfl, rfl, rfl⟩

/-- The last place for three bytes, and for sixteen registers. -/
theorem test_meets_stores :
    (atI .reset 0xFFD#16).i.toNat + 3 ≤ 0x1000 ∧ (atI .reset 0xFF0#16).i.toNat + (15#4 : Nibble).toNat + 1 ≤ 0x1000 := by
  decide

/-- One byte past the end for each of the four instructions. -/
theorem test_meets_memory_fault :
    ((atI .reset 0x1000#16).i.toNat + 1 > 0x1000 ∧
      ∃ x y m : Nibble, Instr.drw 0#4 1#4 1#4 = .drw x y m ∧ 1 = m.toNat ∧ 0 < 1) ∧
    ((atI .reset 0xFFE#16).i.toNat + 3 > 0x1000 ∧ ∃ x, Instr.ldB 0#4 = .ldB x ∧ 3 = 3) ∧
    ((atI .reset 0xFF1#16).i.toNat + 16 > 0x1000 ∧ ∃ x : Nibble, Instr.ldMemV 0xF#4 = .ldMemV x ∧ 16 = x.toNat + 1) ∧
    ((atI .reset 0x1000#16).i.toNat + 1 > 0x1000 ∧ ∃ x : Nibble, Instr.ldVMem 0#4 = .ldVMem x ∧ 1 = x.toNat + 1) :=
  ⟨⟨by decide, _, _, _, rfl, rfl, by decide⟩, ⟨by decide, _, rfl, rfl⟩, ⟨by decide, _, rfl, rfl⟩,
    ⟨by decide, _, rfl, rfl⟩⟩

theorem test_meets_dump_then_load :
    ∃ t u : State, (atI .reset 0xFF0#16).i.toNat + (15#4 : Nibble).toNat + 1 ≤ 0x1000 ∧
      exec (.ldMemV 15#4) (atI .reset 0xFF0#16) = .next t ∧ u.mem = t.mem ∧ u.i = (atI .reset 0xFF0#16).i :=
  ⟨_, atI _ 0xFF0#16, by decide, rfl, rfl, rfl⟩

theorem test_meets_dump_then_fetch :
    ∃ t u : State, 1 ≤ (1#4 : Nibble).toNat ∧ (atI .reset 0xFFE#16).i.toNat % 2 = 0 ∧
      (atI .reset 0xFFE#16).i.toNat + (1#4 : Nibble).toNat + 1 ≤ 0x1000 ∧
      exec (.ldMemV 1#4) (atI .reset 0xFFE#16) = .next t ∧ u.mem = t.mem ∧ u.pc = (atI .reset 0xFFE#16).i :=
  ⟨_, atPc _ 0xFFE#16, by decide, by decide, by decide, rfl, rfl, rfl⟩

theorem test_meets_delay :
    (holding 0xF507 { State.reset with dt := 4#8 }).Executes (.ldVDt 5#4) ∧
      (holding 0xF415 (withRegs [(4#4, 0#8)])).Executes (.ldDtV 4#4) :=
  ⟨⟨0xF507#16, ⟨rfl, rfl⟩, rfl⟩, ⟨0xF415#16, ⟨rfl, rfl⟩, rfl⟩⟩

/-- The highest key alone, and no key. -/
theorem test_meets_wait_key :
    (15 < 16 ∧ (State.reset.keyIn 0x8000#16).keyDown 15 = true ∧
      ∀ j < 15, (State.reset.keyIn 0x8000#16).keyDown j = false) ∧
    (∀ k < 16, State.reset.keyDown k = false) := by decide

/-- The last key index, and the first index past the keypad. -/
theorem test_meets_key_skips :
    ((withRegs [(1#4, 15#8)]).reg 1#4).toNat ≤ 15 ∧
      15 < ((withRegs [(1#4, 16#8)]).reg 1#4).toNat ∧ (Instr.skp 1#4 = .skp 1#4 ∨ Instr.skp 1#4 = .sknp 1#4) := by decide

/-- An empty sprite past the memory, a sprite that ends with it, a set bit that hits, an index that none hits, and a
collision. -/
theorem test_meets_draw :
    ((0#4 : Nibble).toNat = 0 ∨ (atI .reset 0xFFFF#16).i.toNat + (0#4 : Nibble).toNat ≤ 0x1000) ∧
    ((15#4 : Nibble).toNat = 0 ∨ (atI .reset 0xFF1#16).i.toNat + (15#4 : Nibble).toNat ≤ 0x1000) ∧
    sprite.SpriteHits 0 0 1 0 ∧ ¬sprite.SpriteHits 0 0 0 0 ∧
    (∃ p : Fin 2048, (withPixel sprite 0).SpriteHits 0 0 1 p.val ∧ (withPixel sprite 0).pixel p = 0xFF#8) ∧
    (¬∃ p : Fin 2048, sprite.SpriteHits 0 0 0 p.val ∧ sprite.pixel p = 0xFF#8) := by
  refine ⟨by decide, by decide, ⟨0, by decide, 0, by decide, by unfold State.SpriteBit; decide, rfl⟩, ?_,
    ⟨0, ⟨0, by decide, 0, by decide, by unfold State.SpriteBit; decide, rfl⟩, by decide⟩, ?_⟩
  · rintro ⟨r, hr, _⟩; exact Nat.not_lt_zero r hr
  · rintro ⟨p, ⟨r, hr, _⟩, _⟩; exact Nat.not_lt_zero r hr

theorem test_meets_draw_twice :
    (0#4 : Nibble) ≠ 0xF#4 ∧ (1#4 : Nibble) ≠ 0xF#4 ∧ sprite.flt = none ∧ (∀ p, sprite.pixel p = 0x00#8) ∧
      ∃ t, exec (.drw 0#4 1#4 1#4) sprite = .next t ∧ t.flt = none ∧
        (next? (exec (.drw 0#4 1#4 1#4) t)).isSome = true := by
  refine ⟨by decide, by decide, rfl, fun p => ?_, next_of_eval _ _ (by decide)⟩
  simp [sprite, atI, State.storeBytes, State.pixel, State.reset]

/-- The state after reset meets the invariant (each field by itself), and steps. -/
theorem test_meets_invariant : State.reset.Inv ∧ ∃ t, step (holding 0x1200 .reset) = .next t := by
  refine ⟨⟨rfl, fun p => .inl ?_, by decide, fun k => ?_, trivial⟩, _, rfl⟩
  · simp [State.pixel, State.reset]
  · simp [State.reset]

/-- The largest image, the empty one, and one byte too many. -/
theorem test_meets_load :
    (List.replicate 3584 0x00#8).length ≤ 3584 ∧ ([] : List Byte).length ≤ 3584 ∧
      (List.replicate 3585 0x00#8).length > 3584 := by simp

/-- The widest operands that fit, and the narrowest that do not. -/
theorem test_meets_assembler :
    (4095 < 4096 ∧ ¬4096 < 4096) ∧ (15 < 16 ∧ ¬16 < 16) ∧ ((15 < 16 ∧ 255 < 256) ∧ ¬(15 < 16 ∧ 256 < 256)) ∧
    (15 < 16 ∧ 15 < 16 ∧ 15 < 16) ∧ ((∀ b ∈ [0, 255], b < 256) ∧ ∃ b ∈ [255, 256], 256 ≤ b) := by decide

end Sys2Proof.Tests
end

/-! ## Rules for the instructions and the tick: what `exec` answers, and what it leaves unchanged -/

namespace Sys2Proof.Machine

/-! ### One equation per instruction

What `exec` answers, in the named updates. `call`, `ret` and wait-key have one equation per case. -/

@[simp] theorem exec_cls (s : State) : exec .cls s = .next (s.show (Vector.replicate 2048 0x00#8)) := rfl
@[simp] theorem exec_jp (nnn : Addr) (s : State) : exec (.jp nnn) s = .next (s.setPc (zext16 nnn)) := rfl
@[simp] theorem exec_jpV0 (nnn : Addr) (s : State) :
    exec (.jpV0 nnn) s = .next (s.setPc (BitVec.ofNat 16 (nnn.toNat + (s.reg 0x0#4).toNat))) := rfl
@[simp] theorem exec_seImm (x : Nibble) (nn : Byte) (s : State) :
    exec (.seImm x nn) s = .next (s.skipIf (decide (s.reg x = nn))) := rfl
@[simp] theorem exec_sneImm (x : Nibble) (nn : Byte) (s : State) :
    exec (.sneImm x nn) s = .next (s.skipIf (decide (s.reg x ≠ nn))) := rfl
@[simp] theorem exec_seReg (x y : Nibble) (s : State) :
    exec (.seReg x y) s = .next (s.skipIf (decide (s.reg x = s.reg y))) := rfl
@[simp] theorem exec_sneReg (x y : Nibble) (s : State) :
    exec (.sneReg x y) s = .next (s.skipIf (decide (s.reg x ≠ s.reg y))) := rfl
@[simp] theorem exec_ldImm (x : Nibble) (nn : Byte) (s : State) : exec (.ldImm x nn) s = .next (s.setReg x nn) := rfl
@[simp] theorem exec_addImm (x : Nibble) (nn : Byte) (s : State) :
    exec (.addImm x nn) s = .next (s.setReg x (BitVec.ofNat 8 ((s.reg x).toNat + nn.toNat))) := rfl
@[simp] theorem exec_ldReg (x y : Nibble) (s : State) : exec (.ldReg x y) s = .next (s.setReg x (s.reg y)) := rfl
@[simp] theorem exec_orReg (x y : Nibble) (s : State) :
    exec (.orReg x y) s = .next (s.setReg x (s.reg x ||| s.reg y)) := rfl
@[simp] theorem exec_andReg (x y : Nibble) (s : State) :
    exec (.andReg x y) s = .next (s.setReg x (s.reg x &&& s.reg y)) := rfl
@[simp] theorem exec_xorReg (x y : Nibble) (s : State) :
    exec (.xorReg x y) s = .next (s.setReg x (s.reg x ^^^ s.reg y)) := rfl
@[simp] theorem exec_addReg (x y : Nibble) (s : State) :
    exec (.addReg x y) s = .next (s.setRegFlag x (BitVec.ofNat 8 ((s.reg x).toNat + (s.reg y).toNat))
      (carryFlag (s.reg x) (s.reg y))) := rfl
@[simp] theorem exec_sub (x y : Nibble) (s : State) :
    exec (.sub x y) s = .next (s.setRegFlag x (BitVec.ofNat 8 ((s.reg x).toNat + 256 - (s.reg y).toNat))
      (greaterFlag (s.reg x) (s.reg y))) := rfl
@[simp] theorem exec_shr (x y : Nibble) (s : State) :
    exec (.shr x y) s = .next (s.setRegFlag x (s.reg x >>> 1) (lowBitFlag (s.reg x))) := rfl
@[simp] theorem exec_subn (x y : Nibble) (s : State) :
    exec (.subn x y) s = .next (s.setRegFlag x (BitVec.ofNat 8 ((s.reg y).toNat + 256 - (s.reg x).toNat))
      (greaterFlag (s.reg y) (s.reg x))) := rfl
@[simp] theorem exec_shl (x y : Nibble) (s : State) :
    exec (.shl x y) s = .next (s.setRegFlag x (s.reg x <<< 1) (highBitFlag (s.reg x))) := rfl
@[simp] theorem exec_rnd (x : Nibble) (nn : Byte) (s : State) :
    exec (.rnd x nn) s = .next (s.random8.2.setReg x (s.random8.1 &&& nn)) := rfl
@[simp] theorem exec_drw (x y n : Nibble) (s : State) :
    exec (.drw x y n) s = s.guardIndex n.toNat
      (.next ((s.show (s.drawSprite ((s.reg x).toNat % 64) ((s.reg y).toNat % 32) n.toNat).1).setReg 0xF#4
        (flagByte (s.drawSprite ((s.reg x).toNat % 64) ((s.reg y).toNat % 32) n.toNat).2))) := rfl
@[simp] theorem exec_skp (x : Nibble) (s : State) :
    exec (.skp x) s = s.guardKey x (.next (s.skipIf (s.keyDown (s.reg x).toNat))) := rfl
@[simp] theorem exec_sknp (x : Nibble) (s : State) :
    exec (.sknp x) s = s.guardKey x (.next (s.skipIf (!s.keyDown (s.reg x).toNat))) := rfl
@[simp] theorem exec_ldVDt (x : Nibble) (s : State) : exec (.ldVDt x) s = .next (s.setReg x s.dt) := rfl
@[simp] theorem exec_ldDtV (x : Nibble) (s : State) : exec (.ldDtV x) s = .next (s.setDt (s.reg x)) := rfl
@[simp] theorem exec_ldI (nnn : Addr) (s : State) : exec (.ldI nnn) s = .next (s.setI (zext16 nnn)) := rfl
@[simp] theorem exec_addI (x : Nibble) (s : State) :
    exec (.addI x) s = .next ((s.setI (BitVec.ofNat 16 (s.i.toNat + (s.reg x).toNat))).setReg 0xF#4
      (flagByte (indexFlag s.i (s.reg x)))) := rfl
@[simp] theorem exec_ldF (x : Nibble) (s : State) :
    exec (.ldF x) s = .next (s.setI (BitVec.ofNat 16 (fontBase + 5 * (s.reg x).toNat))) := rfl
@[simp] theorem exec_ldB (x : Nibble) (s : State) :
    exec (.ldB x) s = s.guardIndex 3 (.next (s.storeBytes s.i.toNat (bcdDigits (s.reg x)))) := rfl
@[simp] theorem exec_ldMemV (x : Nibble) (s : State) :
    exec (.ldMemV x) s = s.guardIndex (x.toNat + 1) (.next ((s.storeBytes s.i.toNat (s.lowRegs (x.toNat + 1))).setI
      (BitVec.ofNat 16 (s.i.toNat + (x.toNat + 1))))) := rfl
@[simp] theorem exec_ldVMem (x : Nibble) (s : State) :
    exec (.ldVMem x) s = s.guardIndex (x.toNat + 1) (.next ((s.loadRegs (x.toNat + 1)).setI
      (BitVec.ofNat 16 (s.i.toNat + (x.toNat + 1))))) := rfl

/-- The state after a push of PC on a stack with room (R29, R99). -/
def State.pushed (s : State) (h : s.sp.val < 16) : State :=
  { s with stack := s.stack.set s.sp.val s.pc h, sp := ⟨s.sp.val + 1, by omega⟩ }

/-- The state after a pop of a stack with an entry (R29, R97). -/
def State.popped (s : State) (h : 0 < s.sp.val) : State := { s with sp := ⟨s.sp.val - 1, by omega⟩ }

theorem exec_call_of_lt (nnn : Addr) (s : State) (h : s.sp.val < 16) :
    exec (.call nnn) s = .next ((s.pushed h).setPc (zext16 nnn)) := by
  show execCall nnn s = _
  rw [execCall, s.push?_of_lt s.pc h]; rfl

theorem exec_call_of_full (nnn : Addr) (s : State) (h : s.sp.val = 16) :
    exec (.call nnn) s = .next (s.addDiag (.stackOverflow s.opc s.pc0)) := by
  show execCall nnn s = _
  rw [execCall, s.push?_of_full s.pc h]

theorem exec_ret_of_pos (s : State) (h : 0 < s.sp.val) :
    exec .ret s = .next ((s.popped h).setPc (s.stack[s.sp.val - 1]'(by omega))) := by
  show execRet s = _
  rw [execRet, s.pop?_of_pos h]; rfl

theorem exec_ret_of_empty (s : State) (h : s.sp.val = 0) :
    exec .ret s = .next (s.addDiag (.stackUnderflow s.opc s.pc0)) := by
  show execRet s = _
  rw [execRet, s.pop?_of_empty h]

theorem exec_ldVK_of_some (x : Nibble) (s : State) (k : Nat) (h : s.lowestKey = some k) :
    exec (.ldVK x) s = .next (s.setReg x (BitVec.ofNat 8 k)) := by
  show execLdVK x s = _
  rw [execLdVK, h]

theorem exec_ldVK_of_none (x : Nibble) (s : State) (h : s.lowestKey = none) :
    exec (.ldVK x) s = .next (s.setPc (s.pc - 2#16)) := by
  show execLdVK x s = _
  rw [execLdVK, h]

/-- What call can do (R99). -/
theorem exec_call_cases (nnn : Addr) (s : State) :
    (∃ h : s.sp.val < 16, exec (.call nnn) s = .next ((s.pushed h).setPc (zext16 nnn))) ∨
    (s.sp.val = 16 ∧ exec (.call nnn) s = .next (s.addDiag (.stackOverflow s.opc s.pc0))) := by
  rcases Nat.lt_or_ge s.sp.val 16 with h | h
  · exact .inl ⟨h, exec_call_of_lt nnn s h⟩
  · have full : s.sp.val = 16 := by omega
    exact .inr ⟨full, exec_call_of_full nnn s full⟩

/-- What return can do (R97). -/
theorem exec_ret_cases (s : State) :
    (∃ h : 0 < s.sp.val, exec .ret s = .next ((s.popped h).setPc (s.stack[s.sp.val - 1]'(by omega)))) ∨
    (s.sp.val = 0 ∧ exec .ret s = .next (s.addDiag (.stackUnderflow s.opc s.pc0))) := by
  rcases Nat.eq_zero_or_pos s.sp.val with h | h
  · exact .inr ⟨h, exec_ret_of_empty s h⟩
  · exact .inl ⟨h, exec_ret_of_pos s h⟩

/-- What wait-key can do (R130). -/
theorem exec_ldVK_cases (x : Nibble) (s : State) :
    (∃ k, s.lowestKey = some k ∧ exec (.ldVK x) s = .next (s.setReg x (BitVec.ofNat 8 k))) ∨
    (s.lowestKey = none ∧ exec (.ldVK x) s = .next (s.setPc (s.pc - 2#16))) := by
  cases h : s.lowestKey with
  | none => exact .inr ⟨rfl, exec_ldVK_of_none x s h⟩
  | some k => exact .inl ⟨k, rfl, exec_ldVK_of_some x s k h⟩

/-- The address check, as one condition (R54). -/
theorem State.guardIndex_eq_if (s : State) (n : Nat) (k : Result) :
    s.guardIndex n k = if n = 0 ∨ s.i.toNat + n ≤ 0x1000 then k
      else .next (s.takeFault s.pc0 .addressOutOfRange (max s.i.toNat 0x1000)) := by
  rcases s.guardIndex_cases n k with ⟨h, e⟩ | ⟨h, h', e⟩
  · rw [e, if_pos h]
  · rw [e, if_neg (by omega)]

/-- What a checked access answers: its own result, or an address fault. -/
theorem State.guardIndex_eq_next {s t u : State} {n : Nat} (h : s.guardIndex n (.next u) = .next t) :
    t = u ∨ ∃ a, t = s.takeFault s.pc0 .addressOutOfRange a := by
  rcases s.guardIndex_cases n (.next u) with ⟨_, e⟩ | ⟨_, _, e⟩ <;> cases e.symm.trans h
  · exact .inl rfl
  · exact .inr ⟨_, rfl⟩

/-- What a key skip answers: its own result, or a key index fault. -/
theorem State.guardKey_eq_next {s t u : State} {x : Nibble} (h : s.guardKey x (.next u) = .next t) :
    t = u ∨ ∃ k, t = s.takeFault s.pc0 .keyIndexOutOfRange k := by
  rcases s.guardKey_cases x (.next u) with ⟨_, e⟩ | ⟨_, e⟩ <;> cases e.symm.trans h
  · exact .inl rfl
  · exact .inr ⟨_, rfl⟩

/-- A key skip that took no fault. -/
theorem State.guardKey_of_no_fault {s t u : State} {x : Nibble} (h : s.guardKey x (.next u) = .next t)
    (ht : t.flt = none) : t = u := by
  rcases State.guardKey_eq_next h with e | ⟨k, rfl⟩
  · exact e
  · cases ht

/-- No key is found exactly when the keypad word is 0 (R14, R36). -/
theorem State.lowestKey_eq_none_iff_key (s : State) : s.lowestKey = none ↔ s.key = 0x0000#16 := by
  rw [State.lowestKey_eq_none]
  constructor
  · intro h
    exact BitVec.eq_of_getLsbD_eq fun k hk => by simpa [State.keyDown] using h k hk
  · intro h k _
    simp [State.keyDown, h]

@[simp] theorem State.loadRegs_mem (s : State) (n : Nat) : (s.loadRegs n).mem = s.mem := by
  obtain ⟨v, hv⟩ := s.loadRegs_eq n
  rw [hv]

/-! ### The tick writes the timer only -/

@[simp] theorem State.tick_mem (s : State) : s.tick.mem = s.mem := by rw [State.tick_eq]
@[simp] theorem State.tick_pc (s : State) : s.tick.pc = s.pc := by rw [State.tick_eq]
@[simp] theorem State.tick_stack (s : State) : s.tick.stack = s.stack := by rw [State.tick_eq]
@[simp] theorem State.tick_fb (s : State) : s.tick.fb = s.fb := by rw [State.tick_eq]
@[simp] theorem State.tick_key (s : State) : s.tick.key = s.key := by rw [State.tick_eq]
@[simp] theorem State.tick_df (s : State) : s.tick.df = s.df := by rw [State.tick_eq]
@[simp] theorem State.tick_opc (s : State) : s.tick.opc = s.opc := by rw [State.tick_eq]
@[simp] theorem State.tick_flt (s : State) : s.tick.flt = s.flt := by rw [State.tick_eq]
@[simp] theorem State.tick_diags (s : State) : s.tick.diags = s.diags := by rw [State.tick_eq]
@[simp] theorem State.tick_pixel (s : State) (p : Fin 2048) : s.tick.pixel p = s.pixel p := by
  simp only [State.pixel, State.tick_fb]

/-- A running core's timer goes down by one and stops at 0 (R77). -/
theorem State.tick_dt_of_running (s : State) (h : s.flt = none) : s.tick.dt.toNat = s.dt.toNat - 1 := by
  rw [State.tick_eq]
  by_cases hd : 0 < s.dt.toNat
  · simp only [h, hd, and_self, if_true]; bv_omega
  · simp only [h, hd, and_false, if_false]; omega

/-- The timer stands still in a cycle that faulted (R136). -/
theorem State.tick_of_fault (s : State) (h : s.flt ≠ none) : s.tick = s := by
  simp [State.tick, h]

/-! ### How a step unfolds -/

/-- A halted core's step (R140). -/
theorem step_of_halted (s : State) (h : s.flt ≠ none) : step s = .next s := by
  cases hf : s.flt with
  | none => exact absurd hf h
  | some f => simp [step, hf]

/-- A step whose fetch faults (R75, R136). -/
theorem step_of_fetch_error (s : State) (f : Latch) (h : s.flt = none) (hf : s.fetch = .error f) :
    step s = .next (s.takeFault s.pc f.reason f.info) := by
  simp [step, h, hf]

/-- A step over an unknown word (R79). -/
theorem step_of_unknown (s : State) (w : Word) (h : s.Fetches w) (hd : decode w = none) :
    step s = .next (s.advance w).unknownOpcode.tick := by
  rw [step_of_fetches s w h, hd]; rfl

/-- A step that executes an instruction (R74). -/
theorem step_of_exec (s u : State) (w : Word) (i : Instr) (h : s.Fetches w) (hd : decode w = some i)
    (hu : exec i (s.advance w) = .next u) : step s = .next u.tick := by
  rw [step_of_fetches s w h, hd]
  show finishCycle (exec i (s.advance w)) = _
  rw [hu]; rfl

/-- What a step can do after the fetch of `w`. -/
theorem step_cases_of_fetches {s t : State} {w : Word} (hw : s.Fetches w) (h : step s = .next t) :
    (decode w = none ∧ t = (s.advance w).unknownOpcode.tick) ∨
    (∃ i u, decode w = some i ∧ exec i (s.advance w) = .next u ∧ t = u.tick) := by
  rcases step_cases s t h with ⟨hf, _⟩ | ⟨_, f, hf, _⟩ | ⟨_, w', hf, hd, ht⟩ | ⟨_, w', i, u, hf, hd, hu, ht⟩
  · exact absurd hw.1 hf
  · cases hf.symm.trans hw.2
  · cases hf.symm.trans hw.2; exact .inl ⟨hd, ht⟩
  · cases hf.symm.trans hw.2; exact .inr ⟨i, u, hd, hu, ht⟩

/-! ### The frame of every instruction -/

theorem onlyChanges_random8 (s : State) : OnlyChanges [.randDraws] s s.random8.2 := by
  intro p hp; cases p <;> simp [Part.Same] at hp ⊢

theorem onlyChanges_pushed (s : State) (h : s.sp.val < 16) : OnlyChanges [.stack, .sp] s (s.pushed h) := by
  intro p hp; cases p <;> simp [Part.Same, State.pushed] at hp ⊢ <;> intro _ <;> rfl

theorem onlyChanges_popped (s : State) (h : 0 < s.sp.val) : OnlyChanges [.sp] s (s.popped h) := by
  intro p hp; cases p <;> simp [Part.Same, State.popped] at hp ⊢ <;> intro _ <;> rfl

theorem latchLegal_addressOutOfRange {a : Nat} (h : 0xFFF < a) (h' : a ≤ 0xFFFF) (pc : Word) :
    LatchLegal pc (some ⟨.addressOutOfRange, a⟩) := ⟨h, h'⟩

theorem latchLegal_keyIndexOutOfRange {k : Nat} (h : 15 < k) (h' : k ≤ 255) (pc : Word) :
    LatchLegal pc (some ⟨.keyIndexOutOfRange, k⟩) := ⟨h, h'⟩

/-- What an instruction can do: take a fault that is legal wherever it is taken (R135), or complete and change no piece of
state outside its list. -/
def FaultsOrCompletes (ps : List Part) (s : State) (r : Result) : Prop :=
  (∃ f a, (∀ pc, LatchLegal pc (some ⟨f, a⟩)) ∧ r = .next (s.takeFault s.pc0 f a)) ∨
  (∃ t, r = .next t ∧ OnlyChanges ps s t)

theorem FaultsOrCompletes.of_onlyChanges {ps qs : List Part} {s t : State} (h : OnlyChanges qs s t)
    (hq : ∀ p ∈ qs, p ∈ ps) : FaultsOrCompletes ps s (.next t) :=
  .inr ⟨t, rfl, h.mono hq⟩

/-- The address check in front of an access completes the access or takes a legal fault. -/
theorem FaultsOrCompletes.guardIndex {ps qs : List Part} {s t : State} {n : Nat} (h : OnlyChanges qs s t)
    (hq : ∀ p ∈ qs, p ∈ ps) : FaultsOrCompletes ps s (s.guardIndex n (.next t)) := by
  rcases s.guardIndex_cases n (.next t) with ⟨_, e⟩ | ⟨_, _, e⟩
  · rw [e]; exact .of_onlyChanges h hq
  · have := s.i.isLt
    exact .inl ⟨_, _, latchLegal_addressOutOfRange (by omega) (by omega), e⟩

/-- The key index check in front of a skip lets it through or takes a legal fault. -/
theorem FaultsOrCompletes.guardKey {ps qs : List Part} {s t : State} {x : Nibble} (h : OnlyChanges qs s t)
    (hq : ∀ p ∈ qs, p ∈ ps) : FaultsOrCompletes ps s (s.guardKey x (.next t)) := by
  rcases s.guardKey_cases x (.next t) with ⟨_, e⟩ | ⟨hk, e⟩
  · rw [e]; exact .of_onlyChanges h hq
  · have := (s.reg x).isLt
    exact .inl ⟨_, _, latchLegal_keyIndexOutOfRange hk (by omega), e⟩

theorem exec_faultsOrCompletes (i : Instr) (s : State) : FaultsOrCompletes (partsOf i) s (exec i s) := by
  cases i with
  | cls => exact .of_onlyChanges (onlyChanges_show _ _) (by simp [partsOf])
  | ret =>
    rcases exec_ret_cases s with ⟨h, e⟩ | ⟨_, e⟩ <;> rw [e]
    · exact .of_onlyChanges ((onlyChanges_popped s h).trans (onlyChanges_setPc _ _)) (by simp [partsOf])
    · exact .of_onlyChanges (onlyChanges_addDiag _ _) (by simp [partsOf])
  | call nnn =>
    rcases exec_call_cases nnn s with ⟨h, e⟩ | ⟨_, e⟩ <;> rw [e]
    · exact .of_onlyChanges ((onlyChanges_pushed s h).trans (onlyChanges_setPc _ _)) (by simp [partsOf])
    · exact .of_onlyChanges (onlyChanges_addDiag _ _) (by simp [partsOf])
  | jp | jpV0 => exact .of_onlyChanges (onlyChanges_setPc _ _) (by simp [partsOf])
  | seImm | sneImm | seReg | sneReg => exact .of_onlyChanges (onlyChanges_skipIf _ _) (by simp [partsOf])
  | skp | sknp => exact .guardKey (onlyChanges_skipIf _ _) (by simp [partsOf])
  | ldImm | addImm | ldReg | orReg | andReg | xorReg | ldVDt =>
    exact .of_onlyChanges (onlyChanges_setReg _ _ _) (by simp [partsOf])
  | addReg | sub | shr | subn | shl => exact .of_onlyChanges (onlyChanges_setRegFlag _ _ _ _) (by simp [partsOf])
  | rnd => exact .of_onlyChanges ((onlyChanges_random8 s).trans (onlyChanges_setReg _ _ _)) (by simp [partsOf])
  | drw => exact .guardIndex ((onlyChanges_show _ _).trans (onlyChanges_setReg _ _ _)) (by simp [partsOf])
  | ldVK x =>
    rcases exec_ldVK_cases x s with ⟨_, _, e⟩ | ⟨_, e⟩ <;> rw [e]
    · exact .of_onlyChanges (onlyChanges_setReg _ _ _) (by simp [partsOf])
    · exact .of_onlyChanges (onlyChanges_setPc _ _) (by simp [partsOf])
  | ldDtV => exact .of_onlyChanges (onlyChanges_setDt _ _) (by simp [partsOf])
  | ldI | ldF => exact .of_onlyChanges (onlyChanges_setI _ _) (by simp [partsOf])
  | addI => exact .of_onlyChanges ((onlyChanges_setI _ _).trans (onlyChanges_setReg _ _ _)) (by simp [partsOf])
  | ldB => exact .guardIndex (onlyChanges_storeBytes _ _ _) (by simp [partsOf])
  | ldMemV =>
    exact .guardIndex ((onlyChanges_storeBytes _ _ _).trans (onlyChanges_setI _ _)) (by simp [partsOf])
  | ldVMem => exact .guardIndex ((onlyChanges_loadRegs _ _).trans (onlyChanges_setI _ _)) (by simp [partsOf])

/-- The inversion of `exec`: a legal fault at `pc0`, or a change of the instruction's own pieces of state. -/
theorem exec_cases {i : Instr} {s t : State} (h : exec i s = .next t) :
    (∃ f a, (∀ pc, LatchLegal pc (some ⟨f, a⟩)) ∧ t = s.takeFault s.pc0 f a) ∨ OnlyChanges (partsOf i) s t := by
  rcases exec_faultsOrCompletes i s with ⟨f, a, hl, e⟩ | ⟨u, e, hu⟩ <;> cases h.symm.trans e
  · exact .inl ⟨f, a, hl, rfl⟩
  · exact .inr hu

/-- A piece of state outside the instruction's list, other than PC and the latch, reads the same, fault or not. -/
theorem exec_same {i : Instr} {s t : State} (h : exec i s = .next t) (p : Part) (hp : p ∉ partsOf i)
    (hf : p ∉ [.pc, .fault]) : p.Same s t := by
  rcases exec_cases h with ⟨f, a, _, rfl⟩ | hc
  · exact onlyChanges_takeFault s s.pc0 f a p hf
  · exact hc p hp

/-- A completed instruction leaves the latch alone. -/
theorem fault_notMem_partsOf (i : Instr) : Part.fault ∉ partsOf i := by cases i <;> simp [partsOf]

theorem keypad_notMem_partsOf (i : Instr) : Part.keypad ∉ partsOf i := by cases i <;> simp [partsOf]

theorem opcode_notMem_partsOf (i : Instr) : Part.opcode ∉ partsOf i := by cases i <;> simp [partsOf]

/-- Only set-delay writes the timer. -/
theorem delay_notMem_partsOf (i : Instr) (h : ∀ x, i ≠ .ldDtV x) : Part.delay ∉ partsOf i := by
  cases i with
  | ldDtV x => exact absurd rfl (h x)
  | _ => simp [partsOf]

/-- An instruction that ends with no fault latched completed. -/
theorem exec_completes {i : Instr} {s t : State} (h : exec i s = .next t) (ht : t.flt = none) :
    OnlyChanges (partsOf i) s t := by
  rcases exec_cases h with ⟨f, a, _, rfl⟩ | hc
  · cases ht
  · exact hc

/-- From a state with no fault latched, an instruction that latched one took a legal fault at `pc0`. -/
theorem exec_faults {i : Instr} {s t : State} (hs : s.flt = none) (h : exec i s = .next t) (ht : t.flt ≠ none) :
    ∃ f a, (∀ pc, LatchLegal pc (some ⟨f, a⟩)) ∧ t = s.takeFault s.pc0 f a := by
  rcases exec_cases h with hf | hc
  · exact hf
  · exact absurd ((hc .fault (fault_notMem_partsOf i)).trans hs) ht

end Sys2Proof.Machine

/-! ## The machine's invariant (O50, O51) -/

namespace Sys2Proof.Machine

/-- Where a skip that tests `p` leaves PC, from the address of the skip (R76, R100). -/
theorem skipIf_advance_pc (s : State) (w : Word) {c : Bool} {p : Prop} [Decidable p] (h : c = true ↔ p) :
    ((s.advance w).skipIf c).pc = if p then s.pc + 4#16 else s.pc + 2#16 := by
  rw [State.skipIf_eq]
  by_cases hp : p
  · rw [if_pos hp, h.2 hp]; exact BitVec.add_assoc s.pc 2#16 2#16
  · rw [if_neg hp, Bool.eq_false_iff.2 (mt h.1 hp)]; rfl

/-- PC at the end of an instruction that took no fault (R26), the instruction run in the advanced state. -/
theorem exec_pc {i : Instr} {s t : State} {w : Word} (h : exec i (s.advance w) = .next t) (ht : t.flt = none) :
    t.pc = pcAtEnd i s := by
  cases i with
  | jp | jpV0 => cases h; rfl
  | call nnn =>
    rcases exec_call_cases nnn (s.advance w) with ⟨hsp, e⟩ | ⟨hsp, e⟩ <;> cases e.symm.trans h
    · exact (if_neg (Nat.ne_of_lt hsp)).symm
    · exact (if_pos hsp).symm
  | ret =>
    rcases exec_ret_cases (s.advance w) with ⟨hsp, e⟩ | ⟨hsp, e⟩ <;> cases e.symm.trans h
    · have pos : 0 < s.sp.val := hsp
      simp [pcAtEnd, pos]
    · have empty : s.sp.val = 0 := hsp
      simp [pcAtEnd, empty]
  | seImm | seReg => cases h; exact skipIf_advance_pc s w decide_eq_true_iff
  | sneImm | sneReg => cases h; exact (skipIf_advance_pc s w decide_eq_true_iff).trans (ite_not ..)
  | skp => rw [State.guardKey_of_no_fault h ht]; exact skipIf_advance_pc s w Iff.rfl
  | sknp =>
    rw [State.guardKey_of_no_fault h ht]
    exact (skipIf_advance_pc s w (by simp)).trans (ite_not ..)
  | ldVK x =>
    have hk := (s.advance w).lowestKey_eq_none_iff_key
    rcases exec_ldVK_cases x (s.advance w) with ⟨k, hl, e⟩ | ⟨hl, e⟩ <;> cases e.symm.trans h
    · exact (if_neg fun h0 => by cases hl.symm.trans (hk.2 h0)).symm
    · exact ((if_pos (hk.1 hl)).trans (BitVec.add_sub_cancel s.pc 2#16).symm).symm
  | _ => exact exec_completes h ht .pc (by simp [partsOf])

/-- The largest PC an instruction can leave (R27). -/
theorem pcAtEnd_le (i : Instr) (s : State) (hpc : s.pc.toNat ≤ 0xFFE) (hst : ∀ k : Fin 16, s.stack[k].toNat ≤ 0x1000) :
    (pcAtEnd i s).toNat ≤ 0x10FE := by
  have next : (s.pc + 2#16).toNat ≤ 0x10FE := by bv_omega
  have skip : (s.pc + 4#16).toNat ≤ 0x10FE := by bv_omega
  have addr (nnn : Addr) : (zext16 nnn).toNat ≤ 0x10FE := by
    have := nnn.isLt
    rw [zext16, BitVec.toNat_setWidth]; omega
  cases i with
  | jp nnn => exact addr nnn
  | call nnn => simp only [pcAtEnd]; split <;> [exact next; exact addr nnn]
  | ret =>
    simp only [pcAtEnd]
    split
    next h => exact (hst ⟨s.sp.val - 1, by omega⟩).trans (by omega)
    next => exact next
  | jpV0 nnn =>
    have := nnn.isLt
    have := (s.reg 0x0#4).isLt
    simp only [pcAtEnd, BitVec.toNat_ofNat]; omega
  | seImm | seReg | skp => simp only [pcAtEnd]; split <;> [exact skip; exact next]
  | sneImm | sneReg | sknp => simp only [pcAtEnd]; split <;> [exact next; exact skip]
  | ldVK => simp only [pcAtEnd]; split <;> [exact hpc.trans (by omega); exact next]
  | _ => exact next

/-- The memory list after an instruction: as it was, or with bytes stored. -/
theorem exec_mem {i : Instr} {s t : State} (h : exec i s = .next t) :
    t.mem = s.mem ∨ ∃ a bs, t.mem = Memory.writeBytes s.mem a bs := by
  cases i with
  | ldB | ldMemV =>
    rcases State.guardIndex_eq_next h with rfl | ⟨a, rfl⟩
    · exact .inr ⟨_, _, rfl⟩
    · exact .inl rfl
  | drw | ldVMem => rcases State.guardIndex_eq_next h with rfl | ⟨a, rfl⟩ <;> exact .inl (by simp)
  | skp | sknp => rcases State.guardKey_eq_next h with rfl | ⟨a, rfl⟩ <;> exact .inl (by simp [State.skipIf_eq])
  | seImm | sneImm | seReg | sneReg => cases h; exact .inl (by rw [State.skipIf_eq]; rfl)
  | call nnn => rcases exec_call_cases nnn s with ⟨_, e⟩ | ⟨_, e⟩ <;> cases e.symm.trans h <;> exact .inl rfl
  | ret => rcases exec_ret_cases s with ⟨_, e⟩ | ⟨_, e⟩ <;> cases e.symm.trans h <;> exact .inl rfl
  | ldVK x => rcases exec_ldVK_cases x s with ⟨_, _, e⟩ | ⟨_, e⟩ <;> cases e.symm.trans h <;> exact .inl rfl
  | _ => cases h; exact .inl rfl

theorem exec_keeps_memoryCanonical {i : Instr} {s t : State} (h : exec i s = .next t) (hs : Memory.wf s.mem = true) :
    Memory.wf t.mem = true := by
  rcases exec_mem h with e | ⟨a, bs, e⟩ <;> rw [e]
  · exact hs
  · exact Memory.wf_writeBytes s.mem a bs hs

/-- Toggling keeps a pixel fully set or fully clear. -/
theorem pixel_xor_binary {b : Byte} (h : b = 0x00#8 ∨ b = 0xFF#8) : b ^^^ 0xFF#8 = 0x00#8 ∨ b ^^^ 0xFF#8 = 0xFF#8 := by
  rcases h with rfl | rfl
  · exact .inr rfl
  · exact .inl rfl

/-- A sprite drawn on a framebuffer of 0x00 and 0xFF leaves one (R31). -/
theorem State.drawSprite_binary (s : State) (hs : ∀ p, s.pixel p = 0x00#8 ∨ s.pixel p = 0xFF#8) (x0 y0 n : Nat)
    (p : Fin 2048) : (s.drawSprite x0 y0 n).1[p] = 0x00#8 ∨ (s.drawSprite x0 y0 n).1[p] = 0xFF#8 := by
  have e := foldl_togglePixel_pixel _ (s.spritePixels_nodup x0 y0 n) (s.fb, false) p p.isLt
  show ((s.spritePixels x0 y0 n).foldl togglePixel (s.fb, false)).1[p.val] = _ ∨
    ((s.spritePixels x0 y0 n).foldl togglePixel (s.fb, false)).1[p.val] = _
  rw [e]
  split
  · exact pixel_xor_binary (hs p)
  · exact hs p

theorem exec_keeps_pixelsBinary {i : Instr} {s t : State} (h : exec i s = .next t)
    (hs : ∀ p, s.pixel p = 0x00#8 ∨ s.pixel p = 0xFF#8) (p : Fin 2048) : t.pixel p = 0x00#8 ∨ t.pixel p = 0xFF#8 := by
  cases i with
  | cls => cases h; exact .inl (by simp [State.pixel])
  | drw x y n =>
    rcases State.guardIndex_eq_next h with rfl | ⟨a, rfl⟩
    · exact s.drawSprite_binary hs _ _ _ p
    · exact hs p
  | _ =>
    have e : t.fb = s.fb := exec_same h .framebuffer (by simp [partsOf]) (by simp)
    unfold State.pixel at *; rw [e]; exact hs p

/-- Only call writes a stack entry, and it pushes PC (R28, R99). -/
theorem exec_stack {i : Instr} {s t : State} (h : exec i s = .next t) (k : Fin 16) :
    t.stack[k] = s.stack[k] ∨ t.stack[k] = s.pc := by
  cases i with
  | call nnn =>
    rcases exec_call_cases nnn s with ⟨hsp, e⟩ | ⟨_, e⟩ <;> cases e.symm.trans h
    · show (s.stack.set s.sp.val s.pc hsp)[k.val] = _ ∨ (s.stack.set s.sp.val s.pc hsp)[k.val] = _
      rw [Vector.getElem_set]
      split
      · exact .inr rfl
      · exact .inl rfl
    · exact .inl rfl
  | _ => exact .inl (congrArg (·[k]) (exec_same h .stack (by simp [partsOf]) (by simp)))

/-- A successful fetch is at an even address up to 0xFFE (R75). -/
theorem State.Fetches.pc_legal {s : State} {w : Word} (h : s.Fetches w) : s.pc.toNat % 2 = 0 ∧ s.pc.toNat ≤ 0xFFE := by
  rcases s.fetch_cases with ⟨_, e⟩ | ⟨_, _, e⟩ | ⟨hp, hl, _⟩
  · cases e.symm.trans h.2
  · cases e.symm.trans h.2
  · exact ⟨hp, hl⟩

/-- The latch a failed fetch leaves is legal (R75, R135). -/
theorem State.fetch_error_legal {s : State} {f : Latch} (h : s.fetch = .error f) : LatchLegal s.pc (some f) := by
  rcases s.fetch_cases with ⟨hp, e⟩ | ⟨hp, hl, e⟩ | ⟨_, _, e⟩ <;> cases e.symm.trans h
  · exact ⟨rfl, hp⟩
  · exact ⟨rfl, hp, hl⟩

/-- The invariant speaks of neither the timer nor the tick. -/
theorem State.Inv.tick {s : State} (h : s.Inv) : s.tick.Inv where
  memoryCanonical := by rw [State.tick_mem]; exact h.memoryCanonical
  pixelsBinary := by simpa using h.pixelsBinary
  pcBounded := by rw [State.tick_pc]; exact h.pcBounded
  stackEntriesLegal := by rw [State.tick_stack]; exact h.stackEntriesLegal
  latchLegal := by rw [State.tick_pc, State.tick_flt]; exact h.latchLegal

theorem State.Inv.fetch_fault {s : State} {f : Latch} (h : s.Inv) (hf : s.fetch = .error f) :
    (s.takeFault s.pc f.reason f.info).Inv where
  memoryCanonical := h.memoryCanonical
  pixelsBinary := h.pixelsBinary
  pcBounded := h.pcBounded
  stackEntriesLegal := h.stackEntriesLegal
  latchLegal := State.fetch_error_legal hf

theorem State.Inv.unknownOpcode {s : State} {w : Word} (h : s.Inv) (hw : s.Fetches w) :
    (s.advance w).unknownOpcode.Inv where
  memoryCanonical := h.memoryCanonical
  pixelsBinary := h.pixelsBinary
  pcBounded := by
    have hpc := hw.pc_legal
    show (s.pc + 2#16).toNat ≤ 0x10FE
    bv_omega
  stackEntriesLegal := h.stackEntriesLegal
  latchLegal := by
    show LatchLegal (s.pc + 2#16) s.flt
    rw [hw.1]; trivial

/-- PC and the latch after an instruction: the table of R26 with no fault, or back at the instruction with a legal one. -/
theorem exec_pc_and_latch {i : Instr} {s t : State} {w : Word} (hs : s.Inv) (hw : s.Fetches w)
    (h : exec i (s.advance w) = .next t) : t.pc.toNat ≤ 0x10FE ∧ LatchLegal t.pc t.flt := by
  by_cases ht : t.flt = none
  · rw [exec_pc h ht, ht]
    exact ⟨pcAtEnd_le i s hw.pc_legal.2 fun k => (hs.stackEntriesLegal k).1, trivial⟩
  · obtain ⟨f, a, hl, rfl⟩ := exec_faults (s := s.advance w) hw.1 h ht
    refine ⟨?_, hl _⟩
    rw [State.takeFault_pc, State.advance_pc0]; exact hs.pcBounded

theorem exec_keeps_inv {i : Instr} {s t : State} {w : Word} (hs : s.Inv) (hw : s.Fetches w)
    (h : exec i (s.advance w) = .next t) : t.Inv where
  memoryCanonical := exec_keeps_memoryCanonical h hs.memoryCanonical
  pixelsBinary := exec_keeps_pixelsBinary h hs.pixelsBinary
  pcBounded := (exec_pc_and_latch hs hw h).1
  stackEntriesLegal := fun k => by
    rcases exec_stack h k with e | e <;> rw [e]
    · exact hs.stackEntriesLegal k
    · have hpc := hw.pc_legal
      show (s.pc + 2#16).toNat ≤ 0x1000 ∧ (s.pc + 2#16).toNat % 2 = 0
      bv_omega
  latchLegal := (exec_pc_and_latch hs hw h).2

/-- Settles O51: a step finds the core halted, faults at the fetch, meets an unknown word or runs an instruction, and
each keeps every field of the invariant. -/
theorem stepKeepsTheInvariant : Obligations.StepKeepsTheInvariant := by
  intro s t hs h
  rcases step_cases s t h with ⟨_, rfl⟩ | ⟨_, f, hf, rfl⟩ | ⟨hn, w, hw, _, rfl⟩ | ⟨hn, w, i, u, hw, _, hu, rfl⟩
  · exact hs
  · exact hs.fetch_fault hf
  · exact (hs.unknownOpcode ⟨hn, hw⟩).tick
  · exact (exec_keeps_inv hs ⟨hn, hw⟩ hu).tick

/-- Settles O50: each field of the invariant, read off the reset state. -/
theorem invariantHoldsAtReset : Obligations.InvariantHoldsAtReset where
  memoryCanonical := Memory.wf_nil
  pixelsBinary := fun p => .inl (by simp [State.pixel, State.reset])
  pcBounded := by decide
  stackEntriesLegal := fun k => by simp [State.reset]
  latchLegal := trivial

end Sys2Proof.Machine

/-! ## The program counter, OPC, the frames and the registers (O15, O16, O20, O21) -/

namespace Sys2Proof.Machine

/-- Settles O15: the tick leaves PC alone, and `exec_pc` is the table for an instruction. -/
theorem programCounterTable : Obligations.ProgramCounterTable := by
  intro s t w hw h ht
  rcases step_cases_of_fetches hw h with ⟨hd, rfl⟩ | ⟨i, u, hd, hu, rfl⟩ <;> rw [hd, State.tick_pc]
  · rfl
  · exact exec_pc hu (by rwa [State.tick_flt] at ht)

/-- A diagnostic that an instruction adds is the stack's own, with OPC and the instruction's address (R97, R99, R133). -/
theorem exec_diag {i : Instr} {s t : State} {d : Diag} (h : exec i s = .next t) (hd : t.diags = s.diags ++ [d]) :
    d = .stackOverflow s.opc s.pc0 ∨ d = .stackUnderflow s.opc s.pc0 := by
  cases i with
  | call nnn =>
    rcases exec_call_cases nnn s with ⟨_, e⟩ | ⟨_, e⟩ <;> cases e.symm.trans h
    · exact absurd hd.symm (by simp [State.pushed])
    · exact .inl (by simpa using hd.symm)
  | ret =>
    rcases exec_ret_cases s with ⟨_, e⟩ | ⟨_, e⟩ <;> cases e.symm.trans h
    · exact absurd hd.symm (by simp [State.popped])
    · exact .inr (by simpa using hd.symm)
  | _ =>
    have same : t.diags = s.diags := exec_same h .diagnostics (by simp [partsOf]) (by simp)
    exact absurd (same.symm.trans hd).symm (by simp)

theorem step_opc_of_fetches {s t : State} {w : Word} (hw : s.Fetches w) (h : step s = .next t) : t.opc = w := by
  rcases step_cases_of_fetches hw h with ⟨_, rfl⟩ | ⟨i, u, _, hu, rfl⟩ <;> rw [State.tick_opc]
  · rfl
  · exact exec_same hu .opcode (opcode_notMem_partsOf i) (by simp)

theorem step_opc_of_no_fetch {s t : State} (hw : ∀ w, ¬s.Fetches w) (h : step s = .next t) : t.opc = s.opc := by
  rcases step_cases s t h with ⟨_, rfl⟩ | ⟨_, f, _, rfl⟩ | ⟨hn, w, hf, _⟩ | ⟨hn, w, i, u, hf, _⟩
  · rfl
  · rfl
  · exact absurd ⟨hn, hf⟩ (hw w)
  · exact absurd ⟨hn, hf⟩ (hw w)

theorem step_diag {s t : State} {w : Word} {d : Diag} (hw : s.Fetches w) (h : step s = .next t)
    (hd : t.diags = s.diags ++ [d]) :
    d = .unknownOpcode w s.pc ∨ d = .stackOverflow w s.pc ∨ d = .stackUnderflow w s.pc := by
  rcases step_cases_of_fetches hw h with ⟨_, rfl⟩ | ⟨i, u, _, hu, rfl⟩ <;> rw [State.tick_diags] at hd
  · left; simpa using hd.symm
  · right; simpa using exec_diag hu hd

theorem load_diag {s : State} {bs : List Byte} {d : Diag} (h : (s.load bs).diags = s.diags ++ [d]) :
    ∃ pc, d = .programTooLarge (s.load bs).opc pc := by
  rcases Nat.lt_or_ge Config.maxImage bs.length with hl | hl
  · rw [s.load_tooLarge bs hl] at h ⊢
    exact ⟨Config.loadEventPc s.diags.length, by simpa using h.symm⟩
  · rw [s.load_accepted bs hl] at h
    exact absurd h.symm (by simp)

/-- Settles O16: a fetch overwrites OPC before anything can read it. -/
theorem opcodeRegisterHoldsTheFetchedWord : Obligations.OpcodeRegisterHoldsTheFetchedWord := by
  refine ⟨fun _ _ _ => step_opc_of_fetches, fun _ _ => step_opc_of_no_fetch, ?_, fun _ _ _ _ => step_diag,
    fun _ _ _ => load_diag, fun _ => rfl⟩
  intro s w v hw
  have hv : State.Fetches { s with opc := v } w := hw
  rw [step_of_fetches s w hw, step_of_fetches _ w hv]; rfl

/-- Settles O20, from the inversion `exec_cases`. -/
theorem instructionsChangeOnlyTheirParts : Obligations.InstructionsChangeOnlyTheirParts := by
  intro i s t hs h
  refine ⟨exec_completes h, fun ht => ?_⟩
  obtain ⟨f, a, _, rfl⟩ := exec_faults hs h ht
  exact ⟨onlyChanges_takeFault s s.pc0 f a, rfl⟩

/-- Settles O21: an instruction that lists no registers writes none, and each of the others writes by `setReg`, `setRegFlag`
or `loadRegs`. -/
theorem registersWrittenByEachInstruction : Obligations.RegistersWrittenByEachInstruction := by
  intro i s t r h hr
  cases i with
  | ldImm | addImm | ldReg | orReg | andReg | xorReg | ldVDt | rnd =>
    cases h; exact (State.reg_setReg ..).trans (if_neg hr)
  | ldVK x =>
    rcases exec_ldVK_cases x s with ⟨_, _, e⟩ | ⟨_, e⟩ <;> cases e.symm.trans h
    · exact (State.reg_setReg ..).trans (if_neg hr)
    · rfl
  | addReg | sub | shr | subn | shl =>
    obtain ⟨hx, hf⟩ := not_or.1 hr
    cases h; exact (State.reg_setRegFlag ..).trans ((if_neg hf).trans (if_neg hx))
  | addI => cases h; exact (State.reg_setReg ..).trans (if_neg hr)
  | drw =>
    rcases State.guardIndex_eq_next h with rfl | ⟨a, rfl⟩
    · exact (State.reg_setReg ..).trans (if_neg hr)
    · rfl
  | ldVMem x =>
    rcases State.guardIndex_eq_next h with rfl | ⟨a, rfl⟩
    · have hx := x.isLt
      exact (s.reg_loadRegs (x.toNat + 1) hx r).trans (if_neg (mt Nat.lt_succ_iff.1 hr))
    · rfl
  | _ => exact exec_same h .registers (by simp [partsOf]) (by simp) r

end Sys2Proof.Machine

/-! ## What reads and what writes the keypad, the timer and the draw flag (O13, O17, O18, O19) -/

namespace Sys2Proof.Machine

/-- The state with the keypad, the timer and the draw flag rewritten: the pieces of state that few instructions touch. -/
def State.onPeripherals (s : State) (fk : BitVec 16 → BitVec 16) (fd : Byte → Byte) (fb : Bool → Bool) : State :=
  { s with key := fk s.key, dt := fd s.dt, df := fb s.df }

/-- An instruction's answer with its next state rewritten. -/
def mapNext (f : State → State) : Result → Result
  | .next s => .next (f s)
  | .fault r => .fault r
  | .refused r => .refused r

section Peripherals
variable (s : State) (fk : BitVec 16 → BitVec 16) (fd : Byte → Byte) (fb : Bool → Bool)

theorem State.skipIf_onPeripherals (c : Bool) :
    (s.onPeripherals fk fd fb).skipIf c = (s.skipIf c).onPeripherals fk fd fb := by cases c <;> rfl

theorem State.loadRegs_onPeripherals (n : Nat) :
    (s.onPeripherals fk fd fb).loadRegs n = (s.loadRegs n).onPeripherals fk fd fb := by
  induction n with
  | zero => rfl
  | succ n ih => rw [State.loadRegs, State.loadRegs, ih]; rfl

theorem State.guardIndex_onPeripherals (n : Nat) {k k' : Result} (h : k' = mapNext (·.onPeripherals fk fd fb) k) :
    (s.onPeripherals fk fd fb).guardIndex n k' = mapNext (·.onPeripherals fk fd fb) (s.guardIndex n k) := by
  rw [h, State.guardIndex_eq_if, State.guardIndex_eq_if, apply_ite (mapNext _)]; rfl

theorem State.guardKey_onPeripherals (x : Nibble) {k k' : Result} (h : k' = mapNext (·.onPeripherals fk fd fb) k) :
    (s.onPeripherals fk fd fb).guardKey x k' = mapNext (·.onPeripherals fk fd fb) (s.guardKey x k) := by
  rw [h, State.guardKey, State.guardKey, apply_ite (mapNext _)]; rfl

/-- An instruction commutes with every rewriting of the keypad, the timer and the draw flag that leaves alone those of the
three it reads or writes. -/
theorem exec_onPeripherals (i : Instr) (hk : (∃ x, i = .skp x ∨ i = .sknp x ∨ i = .ldVK x) → fk = id)
    (hd : (∃ x, i = .ldVDt x ∨ i = .ldDtV x) → fd = id) (hb : (i = .cls ∨ ∃ x y n, i = .drw x y n) → fb = id) :
    exec i (s.onPeripherals fk fd fb) = mapNext (·.onPeripherals fk fd fb) (exec i s) := by
  cases i with
  | cls => cases hb (.inl rfl); rfl
  | drw x y n => cases hb (.inr ⟨x, y, n, rfl⟩); exact s.guardIndex_onPeripherals fk fd id _ rfl
  | ldVDt x => cases hd ⟨x, .inl rfl⟩; rfl
  | ldDtV x => cases hd ⟨x, .inr rfl⟩; rfl
  | skp x =>
    cases hk ⟨x, .inl rfl⟩
    exact s.guardKey_onPeripherals id fd fb x (congrArg _ (State.skipIf_onPeripherals ..))
  | sknp x =>
    cases hk ⟨x, .inr (.inl rfl)⟩
    exact s.guardKey_onPeripherals id fd fb x (congrArg _ (State.skipIf_onPeripherals ..))
  | ldVK x =>
    cases hk ⟨x, .inr (.inr rfl)⟩
    rcases exec_ldVK_cases x s with ⟨k, hl, e⟩ | ⟨hl, e⟩ <;> rw [e]
    · exact exec_ldVK_of_some x (s.onPeripherals id fd fb) k hl
    · exact exec_ldVK_of_none x (s.onPeripherals id fd fb) hl
  | ret =>
    rcases exec_ret_cases s with ⟨h, e⟩ | ⟨h, e⟩ <;> rw [e]
    · exact exec_ret_of_pos (s.onPeripherals fk fd fb) h
    · exact exec_ret_of_empty (s.onPeripherals fk fd fb) h
  | call nnn =>
    rcases exec_call_cases nnn s with ⟨h, e⟩ | ⟨h, e⟩ <;> rw [e]
    · exact exec_call_of_lt nnn (s.onPeripherals fk fd fb) h
    · exact exec_call_of_full nnn (s.onPeripherals fk fd fb) h
  | seImm | sneImm | seReg | sneReg => exact congrArg _ (State.skipIf_onPeripherals ..)
  | ldB | ldMemV => exact s.guardIndex_onPeripherals fk fd fb _ rfl
  | ldVMem => rw [exec_ldVMem, State.loadRegs_onPeripherals]; exact s.guardIndex_onPeripherals fk fd fb _ rfl
  | _ => rfl

end Peripherals

theorem step_key {s t : State} (h : step s = .next t) : t.key = s.key := by
  rcases step_cases s t h with ⟨_, rfl⟩ | ⟨_, f, _, rfl⟩ | ⟨_, w, _, _, rfl⟩ | ⟨_, w, i, u, _, _, hu, rfl⟩
  · rfl
  · rfl
  · rw [State.tick_key]; rfl
  · rw [State.tick_key]; exact exec_same hu .keypad (keypad_notMem_partsOf i) (by simp)

theorem onlyChanges_keyIn (s : State) (v : BitVec 16) : OnlyChanges [.keypad] s (s.keyIn v) := by
  intro p hp; cases p <;> simp [Part.Same] at hp ⊢

/-- Settles O17: no instruction lists the keypad, and all but its three readers commute with a write to it. -/
theorem keypadIsWrittenByHostOnly : Obligations.KeypadIsWrittenByHostOnly := by
  refine ⟨fun _ _ => step_key, fun s v => ⟨fun _ _ => rfl, onlyChanges_keyIn s v⟩, fun i s t k hi h => ?_⟩
  have unread : ¬∃ x, i = .skp x ∨ i = .sknp x ∨ i = .ldVK x := fun ⟨x, hx⟩ => by
    obtain ⟨h1, h2, h3⟩ := hi x
    exact hx.elim h1 (·.elim h2 h3)
  have e := exec_onPeripherals s (fun _ => k) id id i (absurd · unread) (fun _ => rfl) (fun _ => rfl)
  rw [h] at e; exact e

/-- The draw flag after an instruction: set, or with the framebuffer as it was. -/
theorem exec_drawFlag {i : Instr} {s t : State} (h : exec i s = .next t) :
    t.df = true ∨ (t.df = s.df ∧ t.fb = s.fb) := by
  cases i with
  | cls => cases h; exact .inl rfl
  | drw =>
    rcases State.guardIndex_eq_next h with rfl | ⟨a, rfl⟩
    · exact .inl rfl
    · exact .inr ⟨rfl, rfl⟩
  | _ =>
    exact .inr ⟨exec_same h .drawFlag (by simp [partsOf]) (by simp),
      exec_same h .framebuffer (by simp [partsOf]) (by simp)⟩

theorem step_drawFlag {s t : State} (h : step s = .next t) : t.df = true ∨ (t.df = s.df ∧ t.fb = s.fb) := by
  rcases step_cases s t h with ⟨_, rfl⟩ | ⟨_, f, _, rfl⟩ | ⟨_, w, _, _, rfl⟩ | ⟨_, w, i, u, _, _, hu, rfl⟩
  · exact .inr ⟨rfl, rfl⟩
  · exact .inr ⟨rfl, rfl⟩
  · rw [State.tick_df, State.tick_fb]; exact .inr ⟨rfl, rfl⟩
  · rw [State.tick_df, State.tick_fb]; exact exec_drawFlag (s := s.advance w) hu

theorem onlyChanges_drawFlagClear (s : State) : OnlyChanges [.drawFlag] s s.drawFlagClear := by
  intro p hp; cases p <;> simp [Part.Same] at hp ⊢

/-- A load, accepted or rejected, writes neither the draw flag nor the timer (R155, R156). -/
theorem State.load_df_dt (s : State) (bs : List Byte) : (s.load bs).df = s.df ∧ (s.load bs).dt = s.dt := by
  rcases Nat.lt_or_ge Config.maxImage bs.length with hl | hl
  · rw [s.load_tooLarge bs hl]; exact ⟨rfl, rfl⟩
  · rw [s.load_accepted bs hl]; exact ⟨rfl, rfl⟩

/-- Settles O18: the framebuffer and the draw flag are written together, and by `show` alone. -/
theorem drawFlagIsSetByDisplayAndClearedByHost : Obligations.DrawFlagIsSetByDisplayAndClearedByHost := by
  refine ⟨?_, ?_, ?_, ?_, ?_⟩
  · intro s t h
    cases h; rfl
  · intro x y n s t _ h ht
    rcases State.guardIndex_eq_next h with rfl | ⟨a, rfl⟩
    · rfl
    · cases ht
  · intro s t h hc
    rcases step_drawFlag h with hset | ⟨hdf, hfb⟩
    · exact hset
    · exact hdf.trans (hc.resolve_left (not_not.2 hfb))
  · exact fun s => ⟨rfl, onlyChanges_drawFlagClear s, rfl⟩
  · exact fun s bs v => ⟨(s.load_df_dt bs).1, rfl⟩

/-- An instruction run with another draw flag answers the same state but for the draw flag. -/
theorem exec_of_other_drawFlag {i : Instr} {s t : State} (b : Bool) (h : exec i s = .next t) :
    ∃ c, exec i { s with df := b } = .next { t with df := c } := by
  by_cases hi : i = .cls ∨ ∃ x y n, i = .drw x y n
  · rcases hi with rfl | ⟨x, y, n, rfl⟩
    · cases h; exact ⟨true, rfl⟩
    · rw [exec_drw, State.guardIndex_eq_if] at h ⊢
      by_cases hn : n.toNat = 0 ∨ s.i.toNat + n.toNat ≤ 0x1000
      · rw [if_pos hn] at h; cases h
        exact ⟨true, if_pos hn⟩
      · rw [if_neg hn] at h; cases h
        exact ⟨b, if_neg hn⟩
  · have e := exec_onPeripherals s id id (fun _ => b) i (fun _ => rfl) (fun _ => rfl) (absurd · hi)
    rw [h] at e; exact ⟨b, e⟩

/-- The tick neither reads nor writes the draw flag. -/
theorem State.tick_of_other_drawFlag (s : State) (c : Bool) : State.tick { s with df := c } = { s.tick with df := c } := by
  rw [State.tick_eq, State.tick_eq]

/-- Settles O19: each of the four things a step can do, done with another draw flag. -/
theorem drawFlagIsNeverRead : Obligations.DrawFlagIsNeverRead := by
  intro s t b h
  rcases step_cases s t h with ⟨hf, rfl⟩ | ⟨hf, f, hw, rfl⟩ | ⟨hf, w, hw, hd, rfl⟩ | ⟨hf, w, i, u, hw, hd, hu, rfl⟩
  · exact ⟨_, step_of_halted _ hf, rfl⟩
  · exact ⟨_, step_of_fetch_error _ f hf hw, rfl⟩
  · refine ⟨_, step_of_unknown _ w ⟨hf, hw⟩ hd, ?_⟩
    exact (State.tick_of_other_drawFlag (s.advance w).unknownOpcode b).trans (by simp)
  · obtain ⟨c, hc⟩ := exec_of_other_drawFlag b hu
    refine ⟨_, step_of_exec _ _ w i ⟨hf, hw⟩ hd hc, ?_⟩
    rw [State.tick_of_other_drawFlag]

/-- Only set-delay writes the timer (R30). -/
theorem exec_dt {i : Instr} {s t : State} (h : exec i s = .next t) (hi : ∀ x, i ≠ .ldDtV x) : t.dt = s.dt :=
  exec_same h .delay (delay_notMem_partsOf i hi) (by simp)

/-- A halted or faulting cycle leaves the timer alone (R136, R140). -/
theorem step_dt_of_fault {s t : State} (h : step s = .next t) (hf : s.flt ≠ none ∨ t.flt ≠ none) : t.dt = s.dt := by
  rcases step_cases s t h with ⟨_, rfl⟩ | ⟨_, f, _, rfl⟩ | ⟨hn, w, _, _, rfl⟩ | ⟨hn, w, i, u, _, _, hu, rfl⟩
  · rfl
  · rfl
  · exact absurd ((State.tick_flt (s.advance w).unknownOpcode).trans hn) (hf.resolve_left (not_not.2 hn))
  · have hu' : u.flt ≠ none := by simpa [hn] using hf
    rw [State.tick_of_fault u hu']
    obtain ⟨f, a, _, rfl⟩ := exec_faults (s := s.advance w) hn hu hu'
    rfl

/-- Only get-delay reads the timer. -/
theorem exec_of_other_delay {i : Instr} {s t : State} (d : Byte) (hi : ∀ x, i ≠ .ldVDt x) (h : exec i s = .next t) :
    ∃ u, exec i { s with dt := d } = .next u ∧ u = { t with dt := u.dt } := by
  by_cases hw : ∃ x, i = .ldDtV x
  · obtain ⟨x, rfl⟩ := hw
    cases h; exact ⟨_, rfl, rfl⟩
  · have unused : ¬∃ x, i = .ldVDt x ∨ i = .ldDtV x := fun ⟨x, hx⟩ => hx.elim (hi x) fun e => hw ⟨x, e⟩
    have e := exec_onPeripherals s id (fun _ => d) id i (fun _ => rfl) (absurd · unused) (fun _ => rfl)
    rw [h] at e; exact ⟨_, e, rfl⟩

/-- Settles O13: set-delay and the tick write the timer, get-delay reads it, and nothing else does either. -/
theorem delayTimerIsWrittenBySetDelayAndTickOnly : Obligations.DelayTimerIsWrittenBySetDelayAndTickOnly := by
  refine ⟨?_, fun _ _ => step_dt_of_fault, fun x s => ⟨_, exec_ldVDt x s, by simp⟩,
    fun _ _ _ => exec_of_other_delay, ?_⟩
  · intro s t w hw h ht
    rcases step_cases_of_fetches hw h with ⟨hd, rfl⟩ | ⟨i, u, hd, hu, rfl⟩ <;> rw [State.tick_flt] at ht <;>
      rw [State.tick_dt_of_running _ ht, hd]
    · rfl
    · split
      next x hx => cases hx; cases hu; rfl
      next hx => rw [exec_dt hu fun x e => hx x (congrArg some e)]; rfl
  · intro o s t hstep hreset h
    cases o with
    | step => exact absurd rfl hstep
    | reset => exact absurd rfl hreset
    | load bs => cases h; exact (s.load_df_dt bs).2
    | keyIn | drawFlagClear => cases h; rfl

end Sys2Proof.Machine

/-! ## Single instructions and reset (O28, O32, O33, O34, O45, O54) -/

namespace Sys2Proof.Machine

/-- Settles O28: one draw, then one register write. -/
theorem randomByteIsMaskedByImmediate : Obligations.RandomByteIsMaskedByImmediate := by
  intro x nn s
  refine ⟨_, exec_rnd x nn s, by simp, rfl, fun r hr => ?_, ?_⟩
  · exact (State.reg_setReg ..).trans (if_neg (by simpa using hr))
  · exact ((onlyChanges_random8 s).trans (onlyChanges_setReg _ _ _)).mono (by simp)

/-- Settles O32: a push and a jump, or the diagnostic alone. -/
theorem callPushesAndJumps : Obligations.CallPushesAndJumps := by
  intro nnn s
  refine ⟨fun h => ⟨_, exec_call_of_lt nnn s h, ?_, rfl, fun k => ?_, ?_⟩,
    fun h => ⟨_, exec_call_of_full nnn s h, rfl, onlyChanges_addDiag _ _⟩⟩
  · have := nnn.isLt
    rw [State.setPc_pc, zext16, BitVec.toNat_setWidth]; omega
  · show (s.stack.set s.sp.val s.pc h)[k.val] = _
    rw [Vector.getElem_set]; simp only [eq_comm]; rfl
  · exact ((onlyChanges_pushed s h).trans (onlyChanges_setPc _ _)).mono (by simp)

/-- Settles O33: a pop into PC, or the diagnostic alone. -/
theorem returnPopsIntoPc : Obligations.ReturnPopsIntoPc := by
  intro s
  refine ⟨fun k hk => ?_, fun h => ⟨_, exec_ret_of_empty s h, rfl, onlyChanges_addDiag _ _⟩⟩
  have pos : 0 < s.sp.val := by omega
  refine ⟨_, exec_ret_of_pos s pos, ?_, ?_, ?_⟩
  · show s.sp.val - 1 = k.val
    omega
  · simp [hk]
  · exact ((onlyChanges_popped s pos).trans (onlyChanges_setPc _ _)).mono (by simp)

/-- Settles O34: the return pops the entry that the call pushed. -/
theorem callThenReturnComesBack : Obligations.CallThenReturnComesBack := by
  intro nnn s t u hs h hstack hsp
  cases (exec_call_of_lt nnn s hs).symm.trans h
  have top : u.sp.val = s.sp.val + 1 := congrArg Fin.val hsp
  have pos : 0 < u.sp.val := by omega
  refine ⟨_, exec_ret_of_pos u pos, ?_, ?_⟩
  · simp [hstack, top, State.pushed]
  · apply Fin.ext
    show u.sp.val - 1 = s.sp.val
    omega

/-- PC after a skip, as a number: two more when the condition holds (R76). -/
theorem State.skipIf_pc_toNat (s : State) (c : Bool) :
    (s.skipIf c).pc.toNat = (s.pc.toNat + if c = true then 2 else 0) % 65536 := by
  have := s.pc.isLt
  rw [State.skipIf_eq]
  cases c
  · exact (Nat.mod_eq_of_lt this).symm
  · exact BitVec.toNat_add ..

/-- Settles O45: the key index check lets both skips through. -/
theorem keySkipsTestTheKey : Obligations.KeySkipsTestTheKey := by
  intro x s hx
  have pass (k : Result) : s.guardKey x k = k := if_neg (by omega)
  refine ⟨⟨_, pass _, onlyChanges_skipIf _ _, s.skipIf_pc_toNat _⟩, ⟨_, pass _, onlyChanges_skipIf _ _, ?_⟩⟩
  rw [State.skipIf_pc_toNat]
  cases s.keyDown (s.reg x).toNat <;> rfl

/-- The state a reset leaves, the first one or a later one: the reset state but for the memory, `load_error`, the events and
the draw count (R39, R153). -/
theorem eq_reset_but {s t : State} (h : t = s.hostReset ∨ t = State.reset) :
    ∃ m e ds n, t = { State.reset with mem := m, loadError := e, diags := ds, randDraws := n } := by
  rcases h with rfl | rfl
  · exact ⟨_, _, _, _, rfl⟩
  · exact ⟨_, _, _, _, rfl⟩

/-- Settles O54: every register reads as in the reset state. -/
theorem resetClearsEveryRegister : Obligations.ResetClearsEveryRegister := by
  intro s t h
  obtain ⟨m, e, ds, n, rfl⟩ := eq_reset_but h
  refine ⟨fun r => ?_, rfl, rfl, fun k => ?_, rfl, rfl, fun p => ?_, fun k _ => ?_, rfl, rfl, rfl⟩
  · simp [State.reg, State.reset]
  · simp [State.reset]
  · simp [State.pixel, State.reset]
  · simp [State.keyDown, State.reset]

end Sys2Proof.Machine

/-! ## Memory: rules for stores and checked accesses -/

namespace Sys2Proof.Machine

theorem State.guardIndex_of_inside {s : State} {n : Nat} (h : s.i.toNat + n ≤ 0x1000) (k : Result) :
    s.guardIndex n k = k := by
  rw [State.guardIndex_eq_if, if_pos (.inr h)]

theorem State.guardIndex_of_past {s : State} {n : Nat} (hn : 0 < n) (h : 0x1000 < s.i.toNat + n) (k : Result) :
    s.guardIndex n k = .next (s.takeFault s.pc0 .addressOutOfRange (max s.i.toNat 0x1000)) := by
  rw [State.guardIndex_eq_if, if_neg (by omega)]

/-- A byte reads the same in any two states with the same memory. -/
theorem State.byteAt_congr {s t : State} (h : s.mem = t.mem) (a : Nat) : s.byteAt a = t.byteAt a :=
  congrArg (Memory.read · a) h

/-- A byte of a store inside the memory (R62). -/
theorem State.byteAt_storeBytes_of_lt (s : State) {a k : Nat} {bs : List Byte} (h : a + bs.length ≤ 0x1000)
    (hk : k < bs.length) : (s.storeBytes a bs).byteAt (a + k) = bs[k] := by
  show Memory.read (Memory.writeBytes s.mem a bs) (a + k) = bs[k]
  rw [Memory.read_writeBytes _ _ _ h, if_pos (Nat.le_add_right a k), Nat.add_sub_cancel_left,
    List.getElem?_eq_getElem hk, Option.getD_some]

/-- A store of `n` bytes leaves every byte outside `[a, a + n)` alone. -/
theorem State.bytesSameOutside_storeBytes (s : State) (a : Nat) {bs : List Byte} {n : Nat} (hn : bs.length = n) :
    BytesSameOutside a n s (s.storeBytes a bs) := by
  subst hn
  exact fun b hb => Memory.read_writeBytes_outside s.mem a bs b hb

/-- The byte that a block dump stores for a register it covers (R124). -/
theorem State.lowRegs_getElem_toNat (s : State) {n : Nat} (r : Nibble) (h : r.toNat < (s.lowRegs n).length) :
    (s.lowRegs n)[r.toNat] = s.reg r := by
  simp [State.lowRegs]

/-- `I` moved past an access inside the memory does not wrap. -/
theorem State.toNat_i_add {s : State} {n : Nat} (h : s.i.toNat + n ≤ 0x1000) :
    (BitVec.ofNat 16 (s.i.toNat + n)).toNat = s.i.toNat + n := by
  rw [BitVec.toNat_ofNat, Nat.mod_eq_of_lt (by omega)]

/-- The byte at the lower address is the high half of the word (R50). -/
theorem wordOfBytes_toNat (hi lo : Byte) : (wordOfBytes hi lo).toNat = hi.toNat * 256 + lo.toNat := by
  rw [wordOfBytes, BitVec.toNat_append, ← Nat.shiftLeft_add_eq_or_of_lt lo.isLt, Nat.shiftLeft_eq]

theorem State.fetch_of_even {s : State} (h : s.pc.toNat % 2 = 0) (h' : s.pc.toNat ≤ 0xFFE) :
    s.fetch = .ok (wordOfBytes (s.byteAt s.pc.toNat) (s.byteAt (s.pc.toNat + 1))) := by
  rcases s.fetch_cases with ⟨odd, _⟩ | ⟨_, above, _⟩ | ⟨_, _, e⟩
  · omega
  · omega
  · exact e

end Sys2Proof.Machine

/-! ## bcd, reg-dump and reg-load, inside the memory and past its end (O37 to O42) -/

namespace Sys2Proof.Machine

/-- Settles O38: the address check lets the store through, and byte `I + r` of it is `V[r]`. -/
theorem registerDumpStoresAndAdvances : Obligations.RegisterDumpStoresAndAdvances := by
  intro x s h
  refine ⟨_, (exec_ldMemV x s).trans (State.guardIndex_of_inside h _), fun r hr => ?_, State.toNat_i_add h, ?_, ?_⟩
  · have stored : r.toNat < (s.lowRegs (x.toNat + 1)).length := by rw [State.lowRegs_length]; omega
    rw [State.setI_byteAt, s.byteAt_storeBytes_of_lt (by rwa [State.lowRegs_length]) stored,
      State.lowRegs_getElem_toNat]
  · exact s.bytesSameOutside_storeBytes s.i.toNat (s.lowRegs_length _)
  · exact (onlyChanges_storeBytes _ _ _).trans (onlyChanges_setI _ _)

/-- Settles O39: the address check lets the block load through. -/
theorem registerLoadReadsAndAdvances : Obligations.RegisterLoadReadsAndAdvances := by
  intro x s h
  refine ⟨_, (exec_ldVMem x s).trans (State.guardIndex_of_inside h _), fun r => ?_, State.toNat_i_add h, ?_⟩
  · rw [State.setI_reg, s.reg_loadRegs _ x.isLt]
    simp only [Nat.lt_succ_iff]
  · exact (onlyChanges_loadRegs _ _).trans (onlyChanges_setI _ _)

/-- Settles O40: each of the four is an address check before its effect, and the smallest bad address is `I` or 0x1000. -/
theorem memoryInstructionsFaultPastTheEnd : Obligations.MemoryInstructionsFaultPastTheEnd := by
  intro i n s h hi
  have checked : 0 < n ∧ ∃ k, exec i s = s.guardIndex n k := by
    rcases hi with ⟨x, y, m, rfl, rfl, hn⟩ | ⟨x, rfl, rfl⟩ | ⟨x, rfl, rfl⟩ | ⟨x, rfl, rfl⟩
    · exact ⟨hn, _, exec_drw x y m s⟩
    · exact ⟨by omega, _, exec_ldB x s⟩
    · exact ⟨by omega, _, exec_ldMemV x s⟩
    · exact ⟨by omega, _, exec_ldVMem x s⟩
  obtain ⟨hn, k, hk⟩ := checked
  refine ⟨_, max s.i.toNat 0x1000, hk.trans (State.guardIndex_of_past hn h k), rfl,
    ⟨Nat.le_max_left _ _, ?_, ?_, fun b _ hb => ?_⟩, rfl, onlyChanges_takeFault _ _ _ _⟩ <;> omega

/-- Settles O41: the load reads the bytes that the dump stored. -/
theorem dumpThenLoadRestoresRegisters : Obligations.DumpThenLoadRestoresRegisters := by
  intro x s t u h ht hmem hi
  obtain ⟨t', ht', stored, ti, _⟩ := registerDumpStoresAndAdvances x s h
  cases ht'.symm.trans ht
  obtain ⟨v, hv, loaded, vi, _⟩ := registerLoadReadsAndAdvances x u (by rwa [hi])
  refine ⟨v, hv, fun r hr => ?_, BitVec.eq_of_toNat_eq ?_⟩
  · rw [loaded, if_pos hr, hi, State.byteAt_congr hmem, stored r hr]
  · rw [vi, ti, hi]

/-- Settles O42: the fetch reads the two bytes that the dump stored for `V[0]` and `V[1]`. -/
theorem dumpedBytesAreFetchedBigEndian : Obligations.DumpedBytesAreFetchedBigEndian := by
  intro x s t u hx even h ht hmem hpc
  obtain ⟨t', ht', stored, _⟩ := registerDumpStoresAndAdvances x s h
  cases ht'.symm.trans ht
  have high : u.byteAt s.i.toNat = s.reg 0x0#4 := (State.byteAt_congr hmem _).trans (stored 0x0#4 (Nat.zero_le _))
  have low : u.byteAt (s.i.toNat + 1) = s.reg 0x1#4 := (State.byteAt_congr hmem _).trans (stored 0x1#4 hx)
  refine ⟨_, State.fetch_of_even (by rwa [hpc]) (by rw [hpc]; omega), ?_⟩
  rw [wordOfBytes_toNat, hpc, high, low]

/-- Settles O37: the address check lets the store of the three digits through, and each digit fits a byte. -/
theorem bcdStoresThreeDigits : Obligations.BcdStoresThreeDigits := by
  intro x s h
  have digit (k : Nat) (hk : k < 3) : (s.storeBytes s.i.toNat (bcdDigits (s.reg x))).byteAt (s.i.toNat + k) =
      (bcdDigits (s.reg x))[k] := s.byteAt_storeBytes_of_lt h hk
  have hb := (s.reg x).isLt
  refine ⟨_, (exec_ldB x s).trans (State.guardIndex_of_inside h _), ?_, ?_, ?_,
    s.bytesSameOutside_storeBytes s.i.toNat rfl, onlyChanges_storeBytes _ _ _⟩
  · exact (congrArg BitVec.toNat (digit 0 (by omega))).trans (Nat.mod_eq_of_lt (by omega))
  · exact (congrArg BitVec.toNat (digit 1 (by omega))).trans (Nat.mod_eq_of_lt (by omega))
  · exact (congrArg BitVec.toNat (digit 2 (by omega))).trans (Nat.mod_eq_of_lt (by omega))

end Sys2Proof.Machine

/-! ## The decoder as rows of the opcode table (O1 to O5) -/

namespace Sys2Proof

/-- The instruction of `j`'s row whose operands are the fields of `w` (R68). -/
def Instr.withFields (j : Instr) (w : Word) : Instr :=
  match j with
  | .cls => .cls
  | .ret => .ret
  | .jp _ => .jp (fieldNNN w)
  | .call _ => .call (fieldNNN w)
  | .seImm _ _ => .seImm (fieldX w) (fieldNN w)
  | .sneImm _ _ => .sneImm (fieldX w) (fieldNN w)
  | .seReg _ _ => .seReg (fieldX w) (fieldY w)
  | .ldImm _ _ => .ldImm (fieldX w) (fieldNN w)
  | .addImm _ _ => .addImm (fieldX w) (fieldNN w)
  | .ldReg _ _ => .ldReg (fieldX w) (fieldY w)
  | .orReg _ _ => .orReg (fieldX w) (fieldY w)
  | .andReg _ _ => .andReg (fieldX w) (fieldY w)
  | .xorReg _ _ => .xorReg (fieldX w) (fieldY w)
  | .addReg _ _ => .addReg (fieldX w) (fieldY w)
  | .sub _ _ => .sub (fieldX w) (fieldY w)
  | .shr _ _ => .shr (fieldX w) (fieldY w)
  | .subn _ _ => .subn (fieldX w) (fieldY w)
  | .shl _ _ => .shl (fieldX w) (fieldY w)
  | .sneReg _ _ => .sneReg (fieldX w) (fieldY w)
  | .ldI _ => .ldI (fieldNNN w)
  | .jpV0 _ => .jpV0 (fieldNNN w)
  | .rnd _ _ => .rnd (fieldX w) (fieldNN w)
  | .drw _ _ _ => .drw (fieldX w) (fieldY w) (fieldN w)
  | .skp _ => .skp (fieldX w)
  | .sknp _ => .sknp (fieldX w)
  | .ldVDt _ => .ldVDt (fieldX w)
  | .ldVK _ => .ldVK (fieldX w)
  | .ldDtV _ => .ldDtV (fieldX w)
  | .addI _ => .addI (fieldX w)
  | .ldF _ => .ldF (fieldX w)
  | .ldB _ => .ldB (fieldX w)
  | .ldMemV _ => .ldMemV (fieldX w)
  | .ldVMem _ => .ldVMem (fieldX w)

/-- Operands do not matter for the row. -/
theorem Instr.withFields_row (j : Instr) (w : Word) :
    rowMask (j.withFields w) = rowMask j ∧ rowMatch (j.withFields w) = rowMatch j := by
  cases j <;> exact ⟨rfl, rfl⟩

/-- A word with the fixed bits of a row decodes to the row's instruction, with its own fields as operands (R72, R83). -/
theorem decodesAs_row (j : Instr) : Machine.DecodesAs (rowMask j) (rowMatch j) j.withFields := by
  intro w h
  cases j with
  | jp | call | seImm | sneImm | seReg | ldImm | addImm | sneReg | ldI | jpV0 | rnd | drw =>
    dsimp only [rowMask, rowMatch] at h
    have hf := (mask_family w _ (by decide)).1 h
    rw [decode, hf]; rfl
  | ldDtV | ldMemV | ldVMem =>
    dsimp only [rowMask, rowMatch] at h
    obtain ⟨hf, hy, hn⟩ := (mask_family_byte w _ (by decide)).1 h
    rw [decode, hf, hn, hy]; rfl
  | _ =>
    dsimp only [rowMask, rowMatch] at h
    obtain ⟨hf, hn⟩ := (mask_family_low w _ (by decide)).1 h
    rw [decode, hf, hn]; rfl

/-- The canonical word of an instruction lies in its row. -/
theorem encode_row (i : Instr) : encode i &&& rowMask i = rowMatch i :=
  match i with
  | .cls => Laws.TablePattern.cls
  | .ret => Laws.TablePattern.ret
  | .jp nnn => Laws.TablePattern.jp nnn
  | .call nnn => Laws.TablePattern.call nnn
  | .seImm x nn => Laws.TablePattern.seImm x nn
  | .sneImm x nn => Laws.TablePattern.sneImm x nn
  | .seReg x y => Laws.TablePattern.seReg x y
  | .ldImm x nn => Laws.TablePattern.ldImm x nn
  | .addImm x nn => Laws.TablePattern.addImm x nn
  | .ldReg x y => Laws.TablePattern.ldReg x y
  | .orReg x y => Laws.TablePattern.orReg x y
  | .andReg x y => Laws.TablePattern.andReg x y
  | .xorReg x y => Laws.TablePattern.xorReg x y
  | .addReg x y => Laws.TablePattern.addReg x y
  | .sub x y => Laws.TablePattern.sub x y
  | .shr x y => Laws.TablePattern.shr x y
  | .subn x y => Laws.TablePattern.subn x y
  | .shl x y => Laws.TablePattern.shl x y
  | .sneReg x y => Laws.TablePattern.sneReg x y
  | .ldI nnn => Laws.TablePattern.ldI nnn
  | .jpV0 nnn => Laws.TablePattern.jpV0 nnn
  | .rnd x nn => Laws.TablePattern.rnd x nn
  | .drw x y n => Laws.TablePattern.drw x y n
  | .skp x => Laws.TablePattern.skp x
  | .sknp x => Laws.TablePattern.sknp x
  | .ldVDt x => Laws.TablePattern.ldVDt x
  | .ldVK x => Laws.TablePattern.ldVK x
  | .ldDtV x => Laws.TablePattern.ldDtV x
  | .addI x => Laws.TablePattern.addI x
  | .ldF x => Laws.TablePattern.ldF x
  | .ldB x => Laws.TablePattern.ldB x
  | .ldMemV x => Laws.TablePattern.ldMemV x
  | .ldVMem x => Laws.TablePattern.ldVMem x

/-- The fields of the canonical word are the instruction's operands (R68). -/
theorem Instr.withFields_encode (i : Instr) : i.withFields (encode i) = i := by
  cases i with
  | cls | ret => rfl
  | jp | call | ldI | jpV0 => simp only [withFields, encode, fields_addr]
  | drw | seReg | sneReg | ldReg | orReg | andReg | xorReg | addReg | sub | shr | subn | shl =>
    simp only [withFields, encode, fields_nibbles]
  | _ => simp only [withFields, encode, fields_byte]

/-- Settles O1: the canonical word lies in the instruction's row, so it decodes to the row's instruction with the fields of
the word as operands, and those are the instruction's own. -/
theorem decodeOfEncodeIsTheInstruction : Obligations.DecodeOfEncodeIsTheInstruction := by
  intro i rest _
  have word : decode (encode i) = some i := by
    rw [decodesAs_row i _ (encode_row i), i.withFields_encode]
  refine ⟨word, ?_⟩
  rw [encodeBytes, decodeBytes_bytesOfWord, word]

/-- A word that decodes has the fixed bits of the instruction's row, and its fields are the operands: the arm that answered
had tested the nibbles that the row's mask keeps. -/
theorem row_of_decode {w : Word} {i : Instr} (h : decode w = some i) :
    w &&& rowMask i = rowMatch i ∧ i.withFields w = i := by
  revert h
  fun_cases decode w <;> rintro ⟨⟩ <;> refine ⟨?_, rfl⟩
  all_goals
    simp (disch := decide) only [rowMask, rowMatch, mask_family, mask_family_low, mask_family_byte, *]
    decide

/-- The decoder, said once: the row's fixed bits and the operands in their fields (R68, R72, R83). -/
theorem decode_eq_some_iff (w : Word) (i : Instr) :
    decode w = some i ↔ w &&& rowMask i = rowMatch i ∧ i.withFields w = i :=
  ⟨row_of_decode, fun ⟨h, hi⟩ => hi ▸ decodesAs_row i w h⟩

/-- The value of a field of a word. -/
theorem extractLsb'_toNat_div (w : Word) (k n : Nat) : (w.extractLsb' k n).toNat = w.toNat / 2 ^ k % 2 ^ n := by
  rw [BitVec.extractLsb'_toNat, Nat.shiftRight_eq_div_pow]

/-- The operand lists of an instruction with the fields of `w`, one for each operand form of R68. -/
theorem Instr.operands_withFields (i : Instr) (w : Word) :
    (i.withFields w).operands = [] ∨
    (i.withFields w).operands = [(.addr, w.toNat % 4096)] ∨
    (i.withFields w).operands = [(.reg, w.toNat / 256 % 16)] ∨
    (i.withFields w).operands = [(.reg, w.toNat / 256 % 16), (.byte, w.toNat % 256)] ∨
    (i.withFields w).operands = [(.reg, w.toNat / 256 % 16), (.reg, w.toNat / 16 % 16)] ∨
    (i.withFields w).operands =
      [(.reg, w.toNat / 256 % 16), (.reg, w.toNat / 16 % 16), (.nibble, w.toNat % 16)] := by
  have x : (fieldX w).toNat = w.toNat / 256 % 16 := extractLsb'_toNat_div w 8 4
  have y : (fieldY w).toNat = w.toNat / 16 % 16 := extractLsb'_toNat_div w 4 4
  have n : (fieldN w).toNat = w.toNat % 16 := (extractLsb'_toNat_div w 0 4).trans (by simp)
  have nn : (fieldNN w).toNat = w.toNat % 256 := (extractLsb'_toNat_div w 0 8).trans (by simp)
  have nnn : (fieldNNN w).toNat = w.toNat % 4096 := (extractLsb'_toNat_div w 0 12).trans (by simp)
  cases i <;> simp [withFields, operands, x, y, n, nn, nnn]

/-- Settles O2: the rows' fixed bits by `decode_eq_some_iff` and `decodesAs_row`, and the operands are fields of the word. -/
theorem decodeIsTheOpcodeTable : Obligations.DecodeIsTheOpcodeTable := by
  refine ⟨fun w i h => ((decode_eq_some_iff w i).1 h).1,
    fun w j h => ⟨j.withFields w, decodesAs_row j w h, j.withFields_row w⟩, fun w i h => ?_⟩
  obtain ⟨_, hi⟩ := (decode_eq_some_iff w i).1 h
  exact hi ▸ i.operands_withFields w

/-- R80's list for family 8 is what the decoder's arms for that family leave over. -/
theorem mem_unlisted_family8 : ∀ n : Nibble, n ∈ [0x8#4, 0x9#4, 0xA#4, 0xB#4, 0xC#4, 0xD#4, 0xF#4] ↔
    n ∉ [0x0#4, 0x1#4, 0x2#4, 0x3#4, 0x4#4, 0x5#4, 0x6#4, 0x7#4, 0xE#4] := by decide

/-- R80's list for family F is what the decoder's arms for that family leave over. -/
theorem mem_unlisted_familyF : ∀ n : Nibble,
    n ∈ [0x0#4, 0x1#4, 0x2#4, 0x4#4, 0x6#4, 0x8#4, 0xB#4, 0xC#4, 0xD#4, 0xF#4] ↔
      n ∉ [0x3#4, 0x5#4, 0x7#4, 0x9#4, 0xA#4, 0xE#4] := by decide

/-- The decoder has an arm for every family. -/
theorem family_listed : ∀ f : Nibble, f ∈ [0x0#4, 0x1#4, 0x2#4, 0x3#4, 0x4#4, 0x5#4, 0x6#4, 0x7#4, 0x8#4, 0x9#4,
    0xA#4, 0xB#4, 0xC#4, 0xD#4, 0xE#4, 0xF#4] := by decide

/-- Settles O3: each arm of the decoder that answers no instruction is one of the listed cases, the last arm of all is
never reached, and every other arm tested a nibble that is not listed. -/
theorem unknownWordsAreThoseListed : Obligations.UnknownWordsAreThoseListed := by
  intro w
  rw [mem_unlisted_family8, mem_unlisted_familyF]
  have known := family_listed (fieldFam w)
  fun_cases decode w <;> simp_all

/-- Settles O4: each word is decoded. -/
theorem specWordsDecodeAsWritten : Obligations.SpecWordsDecodeAsWritten := by
  unfold Obligations.SpecWordsDecodeAsWritten
  decide

/-- Settles O5: the list has two bytes in front or it has not, and their word decodes or it does not. -/
theorem decoderTakesExactlyTwoBytes : Obligations.DecoderTakesExactlyTwoBytes := by
  refine ⟨fun bs h => ?_, fun hi lo rest => ⟨wordOfBytes hi lo, Machine.wordOfBytes_toNat hi lo, ?_⟩⟩
  · match bs with
    | [] | [_] => rfl
    | _ :: _ :: _ => simp at h
  · cases hd : decode (wordOfBytes hi lo) with
    | some i => exact .inl ⟨i, rfl, by simp [decodeBytes, hd]⟩
    | none => exact .inr ⟨rfl, by simp [decodeBytes, hd]⟩

end Sys2Proof

/-! ## The execute cycle (O6, O7, O8, O10) -/

namespace Sys2Proof.Machine

theorem exec_total (i : Instr) (s : State) : ∃ t, exec i s = .next t := by
  rcases exec_faultsOrCompletes i s with ⟨_, _, _, h⟩ | ⟨t, h, _⟩
  · exact ⟨_, h⟩
  · exact ⟨t, h⟩

theorem step_total (s : State) : ∃ t, step s = .next t := by
  by_cases hs : s.flt = none
  · cases hf : s.fetch with
    | error f => exact ⟨_, step_of_fetch_error s f hs hf⟩
    | ok w =>
      cases hd : decode w with
      | none => exact ⟨_, step_of_unknown s w ⟨hs, hf⟩ hd⟩
      | some i =>
        obtain ⟨u, hu⟩ := exec_total i (s.advance w)
        exact ⟨_, step_of_exec s u w i ⟨hs, hf⟩ hd hu⟩
  · exact ⟨s, step_of_halted s hs⟩

/-- Settles O10: an instruction completes or takes a fault, and each is a next state. -/
theorem everyStepAnswersANextState : Obligations.EveryStepAnswersANextState := ⟨exec_total, step_total⟩

/-- The tick, with the timer's test as R77 writes it. -/
theorem State.tick_eq_if (s : State) :
    s.tick = if s.flt = none ∧ s.dt ≠ 0x00#8 then { s with dt := s.dt - 1#8 } else s := by
  have pos : 0 < s.dt.toNat ↔ s.dt ≠ 0x00#8 := by
    rw [Nat.pos_iff_ne_zero, ← BitVec.toNat_ne_iff_ne]; rfl
  simp only [State.tick, pos]

/-- Settles O6: the fetch succeeds with `w`, and the cycle ends with the tick. -/
theorem stepRunsTheDecodedInstruction : Obligations.StepRunsTheDecodedInstruction := by
  intro s w i hs even low hw hd
  have fetched : s.fetch = .ok w := by
    rw [State.fetch_of_even even low]
    exact congrArg _ (BitVec.eq_of_toNat_eq ((wordOfBytes_toNat _ _).trans hw.symm))
  obtain ⟨u, hu⟩ := exec_total i { s with opc := w, pc := s.pc + 2#16 }
  rw [hu, step_of_exec s u w i ⟨hs, fetched⟩ hd hu, State.tick_eq_if]

/-- Settles O7: the advance, the diagnostic and the tick, and the frame of each. -/
theorem unknownWordIsANoOpWithADiagnostic : Obligations.UnknownWordIsANoOpWithADiagnostic := by
  intro s w hw hd
  refine ⟨_, step_of_unknown s w hw hd, by simp, by simp, by simp, State.tick_dt_of_running _ hw.1, ?_⟩
  exact ((onlyChanges_advance s w).trans (onlyChanges_addDiag _ _)).trans (onlyChanges_tick _)

/-- A fault of the fetch changes the latch alone: PC has not moved yet (R136). -/
theorem onlyChanges_takeFault_pc (s : State) (f : Fault) (a : Nat) : OnlyChanges [.fault] s (s.takeFault s.pc f a) := by
  intro p hp
  by_cases h : p = .pc
  · subst h; rfl
  · exact onlyChanges_takeFault s s.pc f a p (by simpa [h] using hp)

/-- Settles O8: the three answers of a fetch. -/
theorem fetchChecksPc : Obligations.FetchChecksPc := by
  intro s hs
  rcases s.fetch_cases with ⟨odd, hf⟩ | ⟨even, high, hf⟩ | ⟨even, low, hf⟩
  · rw [if_pos odd]
    exact ⟨_, step_of_fetch_error s _ hs hf, rfl, onlyChanges_takeFault_pc _ _ _⟩
  · rw [if_neg (by omega), if_pos high]
    exact ⟨_, step_of_fetch_error s _ hs hf, rfl, onlyChanges_takeFault_pc _ _ _⟩
  · rw [if_neg (by omega), if_neg (by omega)]
    exact ⟨_, ⟨hs, hf⟩, extract_high _ _, extract_low _ _⟩

end Sys2Proof.Machine

/-! ## The assembler (O57) -/

namespace Sys2Proof

theorem reg?_eq (n : Nat) : reg? n = if n < 16 then some (BitVec.ofNat 4 n) else none :=
  if_congr decide_eq_true_iff rfl rfl

theorem nibble?_eq (n : Nat) : nibble? n = if n < 16 then some (BitVec.ofNat 4 n) else none :=
  if_congr decide_eq_true_iff rfl rfl

theorem byte?_eq (n : Nat) : byte? n = if n < 256 then some (BitVec.ofNat 8 n) else none :=
  if_congr decide_eq_true_iff rfl rfl

theorem addr?_eq (n : Nat) : addr? n = if n < 4096 then some (BitVec.ofNat 12 n) else none :=
  if_congr decide_eq_true_iff rfl rfl

open Machine (AssemblesWhen)

/-- A line whose assembly is the instruction when a test holds and a refusal when it does not. -/
theorem assemblesWhen_of_eq_if {m : Mnemonic} {ops : List AsmOperand} {p : Prop} [Decidable p] {i : Instr}
    (h : assembleInstr m ops = if p then some i else none) : AssemblesWhen m ops p i :=
  ⟨fun hp => h.trans (if_pos hp), fun hp => h.trans (if_neg hp)⟩

section Forms
variable {m : Mnemonic} {ops : List AsmOperand} {x y n : Nat}

/-- The lines with an address operand. -/
theorem assemblesWhen_asmNNN {c : Addr → Instr} (h : assembleInstr m ops = asmNNN c n) :
    AssemblesWhen m ops (n < 4096) (c (BitVec.ofNat 12 n)) := by
  apply assemblesWhen_of_eq_if
  rw [h, asmNNN, addr?_eq, apply_ite (Option.map c)]; rfl

/-- The lines with one register operand. -/
theorem assemblesWhen_asmX {c : Nibble → Instr} (h : assembleInstr m ops = asmX c x) :
    AssemblesWhen m ops (x < 16) (c (BitVec.ofNat 4 x)) := by
  apply assemblesWhen_of_eq_if
  rw [h, asmX, reg?_eq, apply_ite (Option.map c)]; rfl

/-- The lines with a register and a byte operand. -/
theorem assemblesWhen_asmXNN {c : Nibble → Byte → Instr} (h : assembleInstr m ops = asmXNN c x n) :
    AssemblesWhen m ops (x < 16 ∧ n < 256) (c (BitVec.ofNat 4 x) (BitVec.ofNat 8 n)) := by
  apply assemblesWhen_of_eq_if
  rw [h, asmXNN, reg?_eq, byte?_eq]
  by_cases hx : x < 16 <;> by_cases hn : n < 256 <;> simp [hx, hn]

/-- The lines with two register operands. -/
theorem assemblesWhen_asmXY {c : Nibble → Nibble → Instr} (h : assembleInstr m ops = asmXY c x y) :
    AssemblesWhen m ops (x < 16 ∧ y < 16) (c (BitVec.ofNat 4 x) (BitVec.ofNat 4 y)) := by
  apply assemblesWhen_of_eq_if
  rw [h, asmXY, reg?_eq, reg?_eq]
  by_cases hx : x < 16 <;> by_cases hy : y < 16 <;> simp [hx, hy]

/-- The shifts written with one register, which put 0 in `Y`. -/
theorem assemblesWhen_asmXY_zero {c : Nibble → Nibble → Instr} (h : assembleInstr m ops = asmXY c x 0) :
    AssemblesWhen m ops (x < 16) (c (BitVec.ofNat 4 x) 0x0#4) := by
  simpa using assemblesWhen_asmXY h

end Forms

theorem assemblesWhen_drw (x y n : Nat) : AssemblesWhen .DRW [.v x, .v y, .num n] (x < 16 ∧ y < 16 ∧ n < 16)
    (.drw (BitVec.ofNat 4 x) (BitVec.ofNat 4 y) (BitVec.ofNat 4 n)) := by
  apply assemblesWhen_of_eq_if
  show (do return Instr.drw (← reg? x) (← reg? y) (← nibble? n)) = _
  rw [reg?_eq, reg?_eq, nibble?_eq]
  by_cases hx : x < 16 <;> by_cases hy : y < 16 <;> by_cases hn : n < 16 <;> simp [hx, hy, hn]

theorem assembleLine_db_of_fits {bs : List Nat} (h : ∀ b ∈ bs, b < 256) :
    assembleLine (.db bs) = some (bs.map (BitVec.ofNat 8)) := by
  show bs.mapM byte? = _
  induction bs with
  | nil => rfl
  | cons b bs ih =>
    obtain ⟨hb, hbs⟩ := List.forall_mem_cons.1 h
    rw [List.mapM_cons, byte?_eq, if_pos hb, ih hbs]; rfl

theorem assembleLine_db_of_wide {bs : List Nat} (h : ∃ b ∈ bs, 256 ≤ b) : assembleLine (.db bs) = none := by
  show bs.mapM byte? = none
  induction bs with
  | nil => simp at h
  | cons b bs ih =>
    rw [List.mapM_cons, byte?_eq]
    obtain ⟨c, hc, wide⟩ := h
    rcases List.mem_cons.1 hc with rfl | hc
    · rw [if_neg (by omega)]; rfl
    · rw [ih ⟨c, hc, wide⟩]; split <;> rfl

/-- Settles O57: every line takes one of the operand forms. -/
theorem assemblerRefusesWideOperands : Obligations.AssemblerRefusesWideOperands := by
  refine ⟨⟨fun _ => rfl, fun h => absurd trivial h⟩, ⟨fun _ => rfl, fun h => absurd trivial h⟩,
    fun n => ?_, fun x => ?_, fun x n => ?_, fun x y => ?_, assemblesWhen_drw,
    fun bs => ⟨assembleLine_db_of_fits, assembleLine_db_of_wide⟩⟩
  · refine ⟨?_, ?_, ?_, ?_⟩ <;> exact assemblesWhen_asmNNN rfl
  · refine ⟨?_, ?_, ?_, ?_, ?_, ?_, ?_, ?_, ?_, ?_, assemblesWhen_asmXY_zero rfl, assemblesWhen_asmXY_zero rfl⟩ <;>
      exact assemblesWhen_asmX rfl
  · refine ⟨?_, ?_, ?_, ?_, ?_⟩ <;> exact assemblesWhen_asmXNN rfl
  · refine ⟨?_, ?_, ?_, ?_, ?_, ?_, ?_, ?_, ?_, ?_, ?_⟩ <;> exact assemblesWhen_asmXY rfl

end Sys2Proof

/-! ## The display (O47) -/

namespace Sys2Proof.Machine

/-- Settles O47: the decoder's row of clear-display, and the effect is to show an all-zero framebuffer. -/
theorem clearDisplayZeroesAndFlags : Obligations.ClearDisplayZeroesAndFlags := by
  refine ⟨decodesAs_row .cls, fun s => ⟨_, exec_cls s, fun p => ?_, rfl, onlyChanges_show s _⟩⟩
  exact Vector.getElem_replicate p.isLt

end Sys2Proof.Machine

/-! ## Jumps and register skips (O30, O31) -/

namespace Sys2Proof.Machine

/-- Settles O30: the two decoder rows, and a write of the target to PC. -/
theorem jumpsSetPc : Obligations.JumpsSetPc := by
  refine ⟨decodesAs_row (.jp 0), decodesAs_row (.jpV0 0), fun nnn s =>
    ⟨⟨_, exec_jp nnn s, ?_, onlyChanges_setPc s _⟩, ⟨_, exec_jpV0 nnn s, ?_, onlyChanges_setPc s _⟩⟩⟩
  · exact BitVec.toNat_setWidth_of_le (by decide)
  · exact BitVec.toNat_ofNat ..

/-- PC after a skip on a decided condition, as a number (R100 to R103). -/
theorem State.skipIf_decide_pc_toNat (s : State) (p : Prop) [Decidable p] :
    (s.skipIf (decide p)).pc.toNat = (s.pc.toNat + if p then 2 else 0) % 65536 := by
  rw [State.skipIf_pc_toNat]
  simp only [decide_eq_true_eq]

/-- Settles O31: the four decoder rows, and a skip on each comparison. -/
theorem registerSkips : Obligations.RegisterSkips := by
  refine ⟨decodesAs_row (.seImm 0 0), decodesAs_row (.sneImm 0 0), decodesAs_row (.seReg 0 0),
    decodesAs_row (.sneReg 0 0), fun x y nn s => ⟨?_, ?_, ?_, ?_⟩⟩
  · exact ⟨_, exec_seImm x nn s, onlyChanges_skipIf s _, s.skipIf_decide_pc_toNat _⟩
  · exact ⟨_, exec_sneImm x nn s, onlyChanges_skipIf s _, s.skipIf_decide_pc_toNat _⟩
  · exact ⟨_, exec_seReg x y s, onlyChanges_skipIf s _, s.skipIf_decide_pc_toNat _⟩
  · exact ⟨_, exec_sneReg x y s, onlyChanges_skipIf s _, s.skipIf_decide_pc_toNat _⟩

end Sys2Proof.Machine

/-! ## Registers, arithmetic and the flags (O22 to O27, O29) -/

namespace Sys2Proof.Machine

/-! ### A result register and VF after the write -/

theorem State.reg_setReg_self (s : State) (x : Nibble) (b : Byte) : (s.setReg x b).reg x = b :=
  (State.reg_setReg ..).trans (if_pos rfl)

theorem State.vf_setReg_vf (s : State) (b : Byte) : (s.setReg 0xF#4 b).vf = b := s.reg_setReg_self 0xF#4 b

theorem State.regsSameBut_setReg (s : State) (x : Nibble) (b : Byte) : RegsSameBut [x] s (s.setReg x b) :=
  fun _ hr => (State.reg_setReg ..).trans (if_neg (List.ne_of_not_mem_cons hr))

/-- The result register keeps the result when it is not VF (R16). -/
theorem State.reg_setRegFlag_self (s : State) {x : Nibble} (hx : x ≠ 0xF#4) (b : Byte) (c : Bool) :
    (s.setRegFlag x b c).reg x = b :=
  (State.reg_setRegFlag ..).trans ((if_neg hx).trans (if_pos rfl))

theorem State.regsSameBut_setRegFlag (s : State) (x : Nibble) (b : Byte) (c : Bool) :
    RegsSameBut [x, 0xF#4] s (s.setRegFlag x b c) := by
  intro r hr
  obtain ⟨hx, hf⟩ : r ≠ x ∧ r ≠ 0xF#4 := by simpa using hr
  exact (State.reg_setRegFlag ..).trans ((if_neg hf).trans (if_neg hx))

/-! ### The flags as numbers -/

theorem flagByte_decide_toNat (p : Prop) [Decidable p] : (flagByte (decide p)).toNat = if p then 1 else 0 := by
  by_cases h : p <;> simp [flagByte, h]

theorem flagByte_lowBitFlag_toNat (a : Byte) : (flagByte (lowBitFlag a)).toNat = a.toNat % 2 := by
  rw [lowBitFlag, BitVec.getLsbD, Nat.testBit_zero, flagByte_decide_toNat]
  split <;> omega

theorem flagByte_highBitFlag_toNat (a : Byte) : (flagByte (highBitFlag a)).toNat = a.toNat / 128 := by
  have := a.isLt
  rw [highBitFlag, BitVec.getLsbD, Nat.testBit_eq_decide_div_mod_eq, flagByte_decide_toNat]
  split <;> omega

/-- Draw collides exactly when a set sprite bit lands on a fully-set pixel of the framebuffer it started from (R93). -/
theorem State.drawSprite_flag (s : State) (x0 y0 n : Nat) :
    (s.drawSprite x0 y0 n).2 = true ↔ ∃ p : Fin 2048, s.SpriteHits x0 y0 n p.val ∧ s.pixel p = 0xFF#8 := by
  refine (foldl_togglePixel_flag _ (s.spritePixels_nodup x0 y0 n) _).trans ?_
  constructor
  · rintro (h | ⟨p, hp, hlt, e⟩)
    · cases h
    · exact ⟨⟨p, hlt⟩, (s.mem_spritePixels x0 y0 n p).1 hp, e⟩
  · rintro ⟨p, hp, e⟩
    exact .inr ⟨p.val, (s.mem_spritePixels x0 y0 n p.val).2 hp, p.isLt, e⟩

/-! ### VF after each instruction that writes it as a flag (R119) -/

/-- VF after a result and a flag were written, as a number. -/
theorem State.vf_setRegFlag_toNat (s : State) (x : Nibble) (b : Byte) (c : Bool) :
    (s.setRegFlag x b c).vf.toNat = (flagByte c).toNat := congrArg BitVec.toNat (s.vf_setRegFlag x b c)

section
variable {x y : Nibble} {s t : State}

theorem vf_of_exec_addReg (h : exec (.addReg x y) s = .next t) :
    t.vf.toNat = if (s.reg x).toNat + (s.reg y).toNat > 255 then 1 else 0 := by
  cases h; exact (s.vf_setRegFlag_toNat x _ _).trans (flagByte_decide_toNat _)

theorem vf_of_exec_sub (h : exec (.sub x y) s = .next t) :
    t.vf.toNat = if (s.reg x).toNat > (s.reg y).toNat then 1 else 0 := by
  cases h; exact (s.vf_setRegFlag_toNat x _ _).trans (flagByte_decide_toNat _)

theorem vf_of_exec_shr (h : exec (.shr x y) s = .next t) : t.vf.toNat = (s.reg x).toNat % 2 := by
  cases h; exact (s.vf_setRegFlag_toNat x _ _).trans (flagByte_lowBitFlag_toNat _)

theorem vf_of_exec_subn (h : exec (.subn x y) s = .next t) :
    t.vf.toNat = if (s.reg y).toNat > (s.reg x).toNat then 1 else 0 := by
  cases h; exact (s.vf_setRegFlag_toNat x _ _).trans (flagByte_decide_toNat _)

theorem vf_of_exec_shl (h : exec (.shl x y) s = .next t) : t.vf.toNat = (s.reg x).toNat / 128 := by
  cases h; exact (s.vf_setRegFlag_toNat x _ _).trans (flagByte_highBitFlag_toNat _)

/-- A draw that took no fault leaves its collision flag in VF (R93). -/
theorem vf_of_exec_drw {n : Nibble} (h : exec (.drw x y n) s = .next t) (ht : t.flt = none) :
    t.vf = flagByte (s.drawSprite ((s.reg x).toNat % 64) ((s.reg y).toNat % 32) n.toNat).2 := by
  rcases State.guardIndex_eq_next h with rfl | ⟨a, rfl⟩
  · exact State.vf_setReg_vf _ _
  · cases ht

theorem vf_of_exec_addI (h : exec (.addI x) s = .next t) :
    t.vf.toNat = if s.i.toNat + (s.reg x).toNat > 0xFFF then 1 else 0 := by
  cases h; exact (congrArg BitVec.toNat (State.vf_setReg_vf _ _)).trans (flagByte_decide_toNat _)

end

/-- Settles O29: the flag of each instruction, the collision flag of draw read off the run of toggles, and the reset state. -/
theorem flagTable : Obligations.FlagTable := by
  refine ⟨fun _ _ _ _ => vf_of_exec_addReg, fun _ _ _ _ => vf_of_exec_sub, fun _ _ _ _ => vf_of_exec_shr,
    fun _ _ _ _ => vf_of_exec_subn, fun _ _ _ _ => vf_of_exec_shl, fun x y n s t _ h ht => ?_,
    fun _ _ _ => vf_of_exec_addI, ?_⟩
  · rw [vf_of_exec_drw h ht, ← State.drawSprite_flag]
    exact ⟨fun hc => by rw [hc]; rfl, fun hc => by rw [Bool.eq_false_iff.2 hc]; rfl⟩
  · obtain ⟨cleared, _⟩ := resetClearsEveryRegister .reset _ (.inr rfl)
    exact congrArg BitVec.toNat (cleared 0xF#4)

/-! ### Writes of one register, with no flag -/

/-- Settles O22: the two decoder rows, and one register write. -/
theorem setRegisterFromImmediateOrRegister : Obligations.SetRegisterFromImmediateOrRegister := by
  refine ⟨decodesAs_row (.ldImm 0 0), decodesAs_row (.ldReg 0 0), fun x nn s => ?_, fun x y s => ?_⟩
  · exact ⟨_, exec_ldImm x nn s, s.reg_setReg_self x _, s.regsSameBut_setReg x _, onlyChanges_setReg s x _⟩
  · exact ⟨_, exec_ldReg x y s, s.reg_setReg_self x _, s.regsSameBut_setReg x _, onlyChanges_setReg s x _⟩

/-- Settles O23: the decoder row, and one register write of the sum reduced to a byte. -/
theorem addImmediateWrapsWithoutFlag : Obligations.AddImmediateWrapsWithoutFlag := by
  refine ⟨decodesAs_row (.addImm 0 0), fun x nn s =>
    ⟨_, exec_addImm x nn s, ?_, s.regsSameBut_setReg x _, onlyChanges_setReg s x _⟩⟩
  rw [State.reg_setReg_self, BitVec.toNat_ofNat]

/-- Settles O24: the three decoder rows, and one register write of the bitwise result. -/
theorem logicalOperationsWriteNoFlag : Obligations.LogicalOperationsWriteNoFlag := by
  refine ⟨decodesAs_row (.orReg 0 0), decodesAs_row (.andReg 0 0), decodesAs_row (.xorReg 0 0), fun x y s =>
    ⟨⟨_, exec_orReg x y s, fun k _ => ?_, s.regsSameBut_setReg x _, onlyChanges_setReg s x _⟩,
      ⟨_, exec_andReg x y s, fun k _ => ?_, s.regsSameBut_setReg x _, onlyChanges_setReg s x _⟩,
      ⟨_, exec_xorReg x y s, fun k _ => ?_, s.regsSameBut_setReg x _, onlyChanges_setReg s x _⟩⟩⟩
  · rw [State.reg_setReg_self, BitVec.getLsbD_or]
  · rw [State.reg_setReg_self, BitVec.getLsbD_and]
  · rw [State.reg_setReg_self, BitVec.getLsbD_xor]

/-! ### Writes of a result and a flag -/

/-- Settles O25: the decoder row, the carry, and the sum where it is not overwritten by the carry. -/
theorem addRegistersSetsCarry : Obligations.AddRegistersSetsCarry := by
  refine ⟨decodesAs_row (.addReg 0 0), fun x y s => ⟨_, exec_addReg x y s, vf_of_exec_addReg (exec_addReg x y s),
    fun hx => ?_, s.regsSameBut_setRegFlag x _ _, onlyChanges_setRegFlag s x _ _⟩⟩
  rw [State.reg_setRegFlag_self s hx, BitVec.toNat_ofNat]

/-- The byte that a subtraction stores is the difference mod 256 (R118). -/
theorem difference_toNat (a b : Byte) :
    ((BitVec.ofNat 8 (a.toNat + 256 - b.toNat)).toNat : Int) = (a.toNat - b.toNat : Int) % 256 := by
  have := b.isLt
  rw [BitVec.toNat_ofNat]
  omega

/-- Settles O26: the two decoder rows, the comparison, and the difference where it is not overwritten by the flag. -/
theorem subtractionsSetStrictGreater : Obligations.SubtractionsSetStrictGreater := by
  refine ⟨decodesAs_row (.sub 0 0), decodesAs_row (.subn 0 0), fun x y s =>
    ⟨⟨_, exec_sub x y s, vf_of_exec_sub (exec_sub x y s), fun hx => ?_, s.regsSameBut_setRegFlag x _ _,
        onlyChanges_setRegFlag s x _ _⟩,
      ⟨_, exec_subn x y s, vf_of_exec_subn (exec_subn x y s), fun hx => ?_, s.regsSameBut_setRegFlag x _ _,
        onlyChanges_setRegFlag s x _ _⟩⟩⟩
  · rw [State.reg_setRegFlag_self s hx, difference_toNat]
  · rw [State.reg_setRegFlag_self s hx, difference_toNat]

/-- Settles O27: the two decoder rows, the bit shifted out, and the shifted value where it is not overwritten by that bit. -/
theorem shiftsMoveOneBitIntoVf : Obligations.ShiftsMoveOneBitIntoVf := by
  refine ⟨decodesAs_row (.shr 0 0), decodesAs_row (.shl 0 0), fun x y s =>
    ⟨⟨_, exec_shr x y s, vf_of_exec_shr (exec_shr x y s), fun hx => ?_, s.regsSameBut_setRegFlag x _ _,
        onlyChanges_setRegFlag s x _ _⟩,
      ⟨_, exec_shl x y s, vf_of_exec_shl (exec_shl x y s), fun hx => ?_, s.regsSameBut_setRegFlag x _ _,
        onlyChanges_setRegFlag s x _ _⟩⟩⟩
  · rw [State.reg_setRegFlag_self s hx, BitVec.toNat_ushiftRight, Nat.shiftRight_eq_div_pow, Nat.pow_one]
  · rw [State.reg_setRegFlag_self s hx, BitVec.toNat_shiftLeft, Nat.shiftLeft_eq, Nat.pow_one]

end Sys2Proof.Machine

/-! ## The index register (O35, O36) -/

namespace Sys2Proof.Machine

/-- Settles O35: the two decoder rows, and one write of I; the font address of any byte is below 65536, so it does not
wrap. -/
theorem setIndexAndFontAddress : Obligations.SetIndexAndFontAddress := by
  refine ⟨decodesAs_row (.ldI 0), decodesAs_row (.ldF 0), fun nnn s => ?_, fun x s => ?_⟩
  · exact ⟨_, exec_ldI nnn s, BitVec.toNat_setWidth_of_le (by decide), onlyChanges_setI s _⟩
  · have fits : 0x50 + 5 * (s.reg x).toNat < 2 ^ 16 := by have := (s.reg x).isLt; omega
    exact ⟨_, exec_ldF x s, (BitVec.toNat_ofNat ..).trans (Nat.mod_eq_of_lt fits), onlyChanges_setI s _⟩

/-- Settles O36: the decoder row, a write of I reduced to a word, and a write of VF with the overflow of the sum. -/
theorem addIndexSetsOverflow : Obligations.AddIndexSetsOverflow := by
  refine ⟨decodesAs_row (.addI 0), fun x s => ⟨_, exec_addI x s, ?_, vf_of_exec_addI (exec_addI x s),
    State.regsSameBut_setReg _ 0xF#4 _, (onlyChanges_setI s _).trans (onlyChanges_setReg _ _ _)⟩⟩
  rw [State.setReg_i, State.setI_i, BitVec.toNat_ofNat]

end Sys2Proof.Machine

/-! ## The delay timer and the key index check (O43, O46) -/

namespace Sys2Proof.Machine

@[simp] theorem State.tick_reg (s : State) (r : Nibble) : s.tick.reg r = s.reg r :=
  onlyChanges_tick s .registers (by simp) r

/-- Settles O43: the two decoder rows; one write of a register or of the timer, and in a whole cycle the tick after it. -/
theorem delayTimerReadAndWrite : Obligations.DelayTimerReadAndWrite := by
  refine ⟨decodesAs_row (.ldVDt 0), decodesAs_row (.ldDtV 0), fun x s => ?_, fun x s => ?_, ?_, ?_⟩
  · exact ⟨_, exec_ldVDt x s, s.reg_setReg_self x _, s.regsSameBut_setReg x _, onlyChanges_setReg s x _⟩
  · exact ⟨_, exec_ldDtV x s, rfl, onlyChanges_setDt s _⟩
  · rintro x s ⟨w, fetched, decoded⟩
    refine ⟨_, step_of_exec s _ w _ fetched decoded (exec_ldVDt x _), ?_, State.tick_dt_of_running _ fetched.1⟩
    rw [State.tick_reg, State.reg_setReg_self, State.advance_dt]
  · rintro x s ⟨w, fetched, decoded⟩
    exact ⟨_, step_of_exec s _ w _ fetched decoded (exec_ldDtV x _), State.tick_dt_of_running _ fetched.1⟩

theorem State.guardKey_of_above {s : State} {x : Nibble} (h : 15 < (s.reg x).toNat) (k : Result) :
    s.guardKey x k = .next (s.takeFault s.pc0 .keyIndexOutOfRange (s.reg x).toNat) := if_pos h

/-- Settles O46: both skips are the key index check before a skip, and the check takes the fault. -/
theorem keySkipsFaultPastKeyFifteen : Obligations.KeySkipsFaultPastKeyFifteen := by
  intro i x s h hi
  have checked : ∃ k, exec i s = s.guardKey x k := by
    rcases hi with rfl | rfl
    · exact ⟨_, exec_skp x s⟩
    · exact ⟨_, exec_sknp x s⟩
  obtain ⟨k, hk⟩ := checked
  exact ⟨_, hk.trans (State.guardKey_of_above h k), rfl, rfl, onlyChanges_takeFault s _ _ _⟩

end Sys2Proof.Machine

/-! ## Faults, the halted core and sessions (O9, O11, O12, O52) -/

namespace Sys2Proof.Machine

/-! ### A step that latches a fault -/

/-- A fault is taken in the state the cycle started in, with OPC the word where the fetch succeeded (R136). -/
theorem step_faults {s t : State} (hs : s.flt = none) (h : step s = .next t) (ht : t.flt ≠ none) :
    (∃ f, s.fetch = .error f ∧ t = s.takeFault s.pc f.reason f.info) ∨
    (∃ w f a, s.fetch = .ok w ∧ t = { s with opc := w }.takeFault s.pc f a) := by
  rcases step_cases s t h with ⟨halted, _⟩ | ⟨_, f, hf, rfl⟩ | ⟨_, w, _, _, rfl⟩ | ⟨_, w, i, u, hw, _, hu, rfl⟩
  · exact absurd hs halted
  · exact .inl ⟨f, hf, rfl⟩
  · exact absurd ((State.tick_flt (s.advance w).unknownOpcode).trans hs) ht
  · have latched : u.flt ≠ none := by rwa [State.tick_flt] at ht
    obtain ⟨f, a, _, rfl⟩ := exec_faults (s := s.advance w) hs hu latched
    refine .inr ⟨w, f, a, hw, ?_⟩
    rw [State.tick_of_fault _ latched, State.advance_pc0]; rfl

/-- Settles O12: the latch and OPC are all that a fault of the fetch or of an instruction leaves different. -/
theorem faultIsPrecise : Obligations.FaultIsPrecise := by
  intro s t hs h ht
  rcases step_faults hs h ht with ⟨f, hf, rfl⟩ | ⟨w, f, a, hw, rfl⟩
  · refine ⟨rfl, fun w hw => ?_, fun _ => rfl⟩
    cases hf.symm.trans hw
  · refine ⟨rfl, fun w' hw' => ?_, fun unfetched => absurd hw (unfetched w)⟩
    cases hw.symm.trans hw'; rfl

/-! ### Diagnostics -/

theorem exec_diags {i : Instr} {s t : State} (h : exec i s = .next t) :
    t.diags = s.diags ∨ ∃ d, t.diags = s.diags ++ [d] := by
  cases i with
  | call nnn =>
    rcases exec_call_cases nnn s with ⟨_, e⟩ | ⟨_, e⟩ <;> cases e.symm.trans h
    · exact .inl rfl
    · exact .inr ⟨_, rfl⟩
  | ret =>
    rcases exec_ret_cases s with ⟨_, e⟩ | ⟨_, e⟩ <;> cases e.symm.trans h
    · exact .inl rfl
    · exact .inr ⟨_, rfl⟩
  | _ => exact .inl (exec_same h .diagnostics (by simp [partsOf]) (by simp))

theorem step_diags {s t : State} (h : step s = .next t) : t.diags = s.diags ∨ ∃ d, t.diags = s.diags ++ [d] := by
  rcases step_cases s t h with ⟨_, rfl⟩ | ⟨_, f, _, rfl⟩ | ⟨_, w, _, _, rfl⟩ | ⟨_, w, i, u, _, _, hu, rfl⟩
  · exact .inl rfl
  · exact .inl rfl
  · exact .inr ⟨_, State.tick_diags _⟩
  · rw [State.tick_diags]; exact exec_diags (s := s.advance w) hu

/-- Settles O11: a step that changes the latch took a fault, in which the diagnostics are those of the start of the cycle. -/
theorem atMostOneEventPerCycle : Obligations.AtMostOneEventPerCycle := by
  intro s t h
  by_cases kept : t.flt = s.flt
  · exact .inl ⟨kept, step_diags h⟩
  · have hs : s.flt = none := by
      by_contra halted
      cases h.symm.trans (step_of_halted s halted)
      exact kept rfl
    have ht : t.flt ≠ none := fun e => kept (e.trans hs.symm)
    refine .inr ⟨hs, ht, ?_⟩
    rcases step_faults hs h ht with ⟨_, _, rfl⟩ | ⟨_, _, _, _, rfl⟩ <;> rfl

/-! ### The halted core -/

theorem onlyChanges_keypad_drawFlag (s : State) (k : BitVec 16) (b : Bool) :
    OnlyChanges [.keypad, .drawFlag] s { s with key := k, df := b } := by
  intro p hp; cases p <;> simp [Part.Same, State.byteAt, State.reg] at hp ⊢

/-- Each cycle of a halted core's run is the host's inputs alone (R140). -/
theorem afterCycles_of_halted (script : Script) {s : State} (hs : s.flt ≠ none) :
    ∃ k b, AfterCycles script.length script s { s with key := k, df := b } := by
  induction script generalizing s with
  | nil => exact ⟨s.key, s.df, rfl, rfl⟩
  | cons ins script ih =>
    obtain ⟨k, b, inputs⟩ := s.foldl_input ins
    have halted : (ins.foldl State.input s).flt ≠ none := by rw [inputs]; exact hs
    obtain ⟨k', b', rest⟩ := ih halted
    refine ⟨k', b', (afterCycles_succ ..).2 ⟨_, step_of_halted _ halted, ?_⟩⟩
    rw [inputs] at rest ⊢; exact rest

/-- Settles O9, from `step_of_halted` by induction on the script. -/
theorem haltedCoreDoesNothing : Obligations.HaltedCoreDoesNothing := by
  refine ⟨step_of_halted, fun script s hs => ?_⟩
  obtain ⟨k, b, run⟩ := afterCycles_of_halted script hs
  exact ⟨_, run, onlyChanges_keypad_drawFlag s k b⟩

/-! ### The invariant over the host's operations -/

theorem State.Inv.hostReset {s : State} (h : s.Inv) : s.hostReset.Inv where
  memoryCanonical := Memory.wf_seedFont s.mem h.memoryCanonical
  pixelsBinary := invariantHoldsAtReset.pixelsBinary
  pcBounded := invariantHoldsAtReset.pcBounded
  stackEntriesLegal := invariantHoldsAtReset.stackEntriesLegal
  latchLegal := trivial

theorem State.Inv.load {s : State} (h : s.Inv) (bs : List Byte) : (s.load bs).Inv := by
  obtain ⟨mem, fb, pc, stack, latch⟩ := h
  rcases Nat.lt_or_ge Config.maxImage bs.length with long | fits
  · rw [s.load_tooLarge bs long]; exact ⟨mem, fb, pc, stack, latch⟩
  · rw [s.load_accepted bs fits]; exact ⟨Memory.wf_writeBytes s.mem _ bs mem, fb, pc, stack, latch⟩

theorem State.Inv.keyIn {s : State} (h : s.Inv) (keys : BitVec 16) : (s.keyIn keys).Inv :=
  ⟨h.memoryCanonical, h.pixelsBinary, h.pcBounded, h.stackEntriesLegal, h.latchLegal⟩

theorem State.Inv.drawFlagClear {s : State} (h : s.Inv) : s.drawFlagClear.Inv :=
  ⟨h.memoryCanonical, h.pixelsBinary, h.pcBounded, h.stackEntriesLegal, h.latchLegal⟩

theorem PortOp.apply_keeps_inv (o : PortOp) {s : State} (h : s.Inv) : ∃ t, o.apply s = .next t ∧ t.Inv := by
  cases o with
  | step =>
    obtain ⟨t, ht⟩ := step_total s
    exact ⟨t, ht, stepKeepsTheInvariant s t h ht⟩
  | reset => exact ⟨_, rfl, h.hostReset⟩
  | load bytes => exact ⟨_, rfl, h.load bytes⟩
  | keyIn keys => exact ⟨_, rfl, h.keyIn keys⟩
  | drawFlagClear => exact ⟨_, rfl, h.drawFlagClear⟩

/-- Settles O52, by induction on the session. -/
theorem sessionsKeepTheInvariant : Obligations.SessionsKeepTheInvariant := by
  intro os
  induction os with
  | nil => exact fun s h => ⟨s, session_nil s, h⟩
  | cons o os ih =>
    intro s h
    obtain ⟨u, hu, inv⟩ := o.apply_keeps_inv h
    rw [session_cons_of_next hu]
    exact ih u inv

end Sys2Proof.Machine

/-! ## Reset, load and runs (O14, O53, O55, O56, O58, O59) -/

namespace Sys2Proof.Machine

/-! ### The font after a reset -/

/-- A byte of the font region after a reset, the first one or a later one (R154). -/
theorem byteAt_font_of_reset {s t : State} (h : t = s.hostReset ∨ t = State.reset) {a : Nat} (ha : inFont a = true) :
    t.byteAt a = Config.font (a - fontBase) := by
  rcases h with rfl | rfl
  · exact (s.hostReset_byteAt a).trans (if_pos ha)
  · exact (State.reset_byteAt a).trans (if_pos ha)

/-- Settles O53: a reset writes `FONT` over the font region, where a reset before it left `FONT` already. -/
theorem resetSeedsTheFont : Obligations.ResetSeedsTheFont := by
  refine ⟨fun s t h j hj => ?_, fun s a ha => ?_, fun s t h a => ?_⟩
  · have inside : inFont (fontBase + j) = true := (inFont_iff _).2 ⟨by omega, Nat.add_lt_add_left hj _⟩
    exact (byteAt_font_of_reset h inside).trans (congrArg _ (Nat.add_sub_cancel_left ..))
  · exact (s.hostReset_byteAt a).trans (if_neg (mt (inFont_iff a).1 ha))
  · rw [State.hostReset_byteAt]
    split
    next ha => exact (byteAt_font_of_reset h ha).symm
    next => rfl

/-! ### Load -/

theorem onlyChanges_loadError (s : State) (b : Bool) : OnlyChanges [.loadError] s { s with loadError := b } := by
  intro p hp; cases p <;> simp [Part.Same] at hp ⊢ <;> intro _ <;> rfl

theorem onlyChanges_load_of_fits (s : State) {bs : List Byte} (h : bs.length ≤ Config.maxImage) :
    OnlyChanges [.memory, .loadError] s (s.load bs) := by
  rw [s.load_accepted bs h]
  exact (onlyChanges_storeBytes s _ bs).trans (onlyChanges_loadError _ false)

theorem onlyChanges_load_of_tooLarge (s : State) {bs : List Byte} (h : Config.maxImage < bs.length) :
    OnlyChanges [.diagnostics, .loadError] s (s.load bs) := by
  rw [s.load_tooLarge bs h]
  exact (onlyChanges_addDiag s _).trans (onlyChanges_loadError _ true)

/-- Settles O55: a store that ends inside the memory, and `load_error`. -/
theorem loadCopiesTheImage : Obligations.LoadCopiesTheImage := by
  intro s bs h
  have inside : Config.progBase + bs.length ≤ 0x1000 := Nat.add_le_add_left h 0x200
  refine ⟨fun j hj => ?_, ?_, ?_, onlyChanges_load_of_fits s h⟩
  · rw [s.load_accepted bs h]; exact s.byteAt_storeBytes_of_lt inside hj
  · rw [s.load_accepted bs h]; exact s.bytesSameOutside_storeBytes Config.progBase rfl
  · rw [s.load_accepted bs h]

/-- Settles O56: a diagnostic, and `load_error`. -/
theorem tooLargeImageIsRejected : Obligations.TooLargeImageIsRejected := by
  intro s bs h
  refine ⟨?_, ⟨Config.loadEventPc s.diags.length, ?_⟩, (onlyChanges_load_of_tooLarge s h).mono (by simp)⟩
  · rw [s.load_tooLarge bs h]
  · rw [s.load_tooLarge bs h]; rfl

/-! ### Runs -/

/-- Settles O58, by induction on the script. -/
theorem runsNeverEndOnTheirOwn : Obligations.RunsNeverEndOnTheirOwn := by
  intro script
  induction script with
  | nil => exact fun s => ⟨s, (afterCycles_zero s s).2 rfl⟩
  | cons ins script ih =>
    intro s
    obtain ⟨u, hu⟩ := step_total (ins.foldl State.input s)
    obtain ⟨t, rest⟩ := ih u
    exact ⟨t, (afterCycles_succ ..).2 ⟨u, hu, rest⟩⟩

/-- A step that ends with no fault latched fetched a word. -/
theorem fetches_of_step {s t : State} (h : step s = .next t) (ht : t.flt = none) : ∃ w, s.Fetches w := by
  rcases step_cases s t h with ⟨halted, rfl⟩ | ⟨_, f, _, rfl⟩ | ⟨hs, w, hw, _⟩ | ⟨hs, w, _, _, hw, _⟩
  · exact absurd ht halted
  · cases ht
  · exact ⟨w, hs, hw⟩
  · exact ⟨w, hs, hw⟩

/-- A step that ends with no fault latched started at a legal address and leaves in OPC the big-endian word there (R34, R50,
R75). -/
theorem step_opc_toNat {s t : State} (h : step s = .next t) (ht : t.flt = none) :
    s.flt = none ∧ s.pc.toNat % 2 = 0 ∧ s.pc.toNat ≤ 0xFFE ∧
      t.opc.toNat = (s.byteAt s.pc.toNat).toNat * 256 + (s.byteAt (s.pc.toNat + 1)).toNat := by
  obtain ⟨w, hw⟩ := fetches_of_step h ht
  obtain ⟨even, low⟩ := hw.pc_legal
  refine ⟨hw.1, even, low, ?_⟩
  cases (State.fetch_of_even even low).symm.trans hw.2
  rw [step_opc_of_fetches hw h, wordOfBytes_toNat]

/-- Settles O59: the host's inputs before the last cycle leave PC, the latch and the memory alone. -/
theorem firstFetchReadsTheWordAtItsAddress : Obligations.FirstFetchReadsTheWordAtItsAddress := by
  intro a before last s u t hu hfirst
  obtain ⟨rfl, hstep, ht⟩ := firstFetchAt_last hu hfirst
  obtain ⟨k, b, inputs⟩ := u.foldl_input last
  rw [inputs] at hstep
  obtain ⟨hs, even, low, word⟩ := step_opc_toNat hstep ht
  exact ⟨hs, rfl, even, low, word⟩

/-! ### The delay timer over a session -/

theorem State.load_flt (s : State) (bs : List Byte) : (s.load bs).flt = s.flt := by
  rcases Nat.lt_or_ge Config.maxImage bs.length with long | fits
  · exact onlyChanges_load_of_tooLarge s long .fault (by simp)
  · exact onlyChanges_load_of_fits s fits .fault (by simp)

/-- No operation but a reset ends a halt (R140). -/
theorem PortOp.apply_keeps_halt {o : PortOp} {s t : State} (ho : o ≠ .reset) (h : o.apply s = .next t)
    (hs : s.flt ≠ none) : t.flt ≠ none := by
  cases o with
  | step => cases (step_of_halted s hs).symm.trans h; exact hs
  | reset => exact absurd rfl ho
  | load bytes => cases h; rwa [State.load_flt]
  | keyIn | drawFlagClear => cases h; exact hs

/-- A session that ends well had a first operation that did. -/
theorem session_cons_eq_next {o : PortOp} {os : List PortOp} {s t : State} (h : session (o :: os) s = .next t) :
    ∃ u, o.apply s = .next u ∧ session os u = .next t := by
  cases ho : o.apply s <;> simp [session, ho] at h ⊢
  exact h

/-- A session without a reset does not end a halt, so one that ends unfaulted was never halted. -/
theorem session_keeps_halt {os : List PortOp} {s t : State} (hos : .reset ∉ os) (h : session os s = .next t)
    (hs : s.flt ≠ none) : t.flt ≠ none := by
  induction os generalizing s with
  | nil => cases h; exact hs
  | cons o os ih =>
    obtain ⟨ho, hos⟩ := List.ne_and_not_mem_of_not_mem_cons hos
    obtain ⟨u, hu, rest⟩ := session_cons_eq_next h
    exact ih hos rest (PortOp.apply_keeps_halt (Ne.symm ho) hu hs)

/-- A cycle that takes no fault and executes no set-delay ticks the timer, and that is all (R77, R145). -/
theorem step_dt {s t : State} (h : step s = .next t) (ht : t.flt = none) (hs : ∀ x, ¬s.Executes (.ldDtV x)) :
    t.dt.toNat = s.dt.toNat - 1 := by
  obtain ⟨w, hw⟩ := fetches_of_step h ht
  obtain ⟨ticked, _⟩ := delayTimerIsWrittenBySetDelayAndTickOnly
  have dt := ticked s t w hw h ht
  split at dt
  next x hd => exact absurd ⟨w, hw, hd⟩ (hs x)
  next => exact dt

/-- What one operation of such a session takes off the timer: 1 for a step, and nothing otherwise. -/
theorem PortOp.apply_dt {o : PortOp} {s t : State} (ho : o ≠ .reset) (h : o.apply s = .next t) (ht : t.flt = none)
    (hs : o = .step → ∀ x, ¬s.Executes (.ldDtV x)) : t.dt.toNat = s.dt.toNat - [o].count .step := by
  by_cases hstep : o = .step
  · subst hstep; exact step_dt h ht (hs rfl)
  · obtain ⟨_, _, _, _, others⟩ := delayTimerIsWrittenBySetDelayAndTickOnly
    rw [others o s t hstep ho h, List.count_singleton, if_neg (by simpa using hstep), Nat.sub_zero]

/-- Settles O14, by induction on the session: it ends unfaulted, so no operation of it left the core halted. -/
theorem delayTimerCountsDown : Obligations.DelayTimerCountsDown := by
  intro os
  induction os with
  | nil => intro s t _ h _ _; cases h; rfl
  | cons o os ih =>
    intro s t hos h ht hset
    obtain ⟨ho, hos⟩ := List.ne_and_not_mem_of_not_mem_cons hos
    obtain ⟨u, hu, rest⟩ := session_cons_eq_next h
    have running : u.flt = none := by
      by_contra halted
      exact session_keeps_halt hos rest halted ht
    have first : u.dt.toNat = s.dt.toNat - [o].count .step :=
      PortOp.apply_dt (Ne.symm ho) hu running fun e x => hset [] os s x (congrArg (· :: os) e) (session_nil s)
    have later := ih u t hos rest ht fun before after v x e hv =>
      hset (o :: before) after v x (congrArg (o :: ·) e) ((session_cons_of_next hu before).trans hv)
    rw [later, first, Nat.sub_sub, ← List.count_append, List.singleton_append]

end Sys2Proof.Machine

/-! ## Draw and wait-key (O44, O48, O49) -/

namespace Sys2Proof.Machine

/-- Settles O44: the scan of the keypad finds the lowest pressed key, which fits a byte, or nothing. -/
theorem waitKeyTakesLowestKeyOrStalls : Obligations.WaitKeyTakesLowestKeyOrStalls := by
  refine fun x s => ⟨fun k hk down first => ?_, fun allUp => ?_⟩
  · have found : s.lowestKey = some k := (s.lowestKey_eq_some k).2 ⟨hk, down, first⟩
    refine ⟨_, exec_ldVK_of_some x s k found, ?_, s.regsSameBut_setReg x _, onlyChanges_setReg s x _⟩
    rw [State.reg_setReg_self, BitVec.toNat_ofNat, Nat.mod_eq_of_lt (by omega)]
  · exact ⟨_, exec_ldVK_of_none x s (s.lowestKey_eq_none.2 allUp), rfl, onlyChanges_setPc s _⟩

/-- A sprite toggles the pixels that its set bits land on, and no other (R91, R92). -/
theorem State.drawSprite_pixel (s : State) (x0 y0 n : Nat) (p : Fin 2048) :
    (s.SpriteHits x0 y0 n p.val → (s.drawSprite x0 y0 n).1[p] = s.pixel p ^^^ 0xFF#8) ∧
    (¬s.SpriteHits x0 y0 n p.val → (s.drawSprite x0 y0 n).1[p] = s.pixel p) := by
  have toggled := foldl_togglePixel_pixel _ (s.spritePixels_nodup x0 y0 n) (s.fb, false) p p.isLt
  have hits : p.val ∈ s.spritePixels x0 y0 n ↔ s.SpriteHits x0 y0 n p.val := s.mem_spritePixels x0 y0 n p.val
  exact ⟨fun h => toggled.trans (if_pos (hits.2 h)), fun h => toggled.trans (if_neg (mt hits.1 h))⟩

/-- Settles O48: the address check lets the draw through, and its canvas is a run of toggles. -/
theorem drawTogglesTheSpritePixels : Obligations.DrawTogglesTheSpritePixels := by
  intro x y n s fits
  refine ⟨_, (exec_drw x y n s).trans ((s.guardIndex_eq_if _ _).trans (if_pos fits)),
    s.drawSprite_pixel _ _ _, ?_, ?_, rfl, State.regsSameBut_setReg _ 0xF#4 _,
    ((onlyChanges_show s _).trans (onlyChanges_setReg _ _ _)).mono (by simp)⟩
  · intro collision
    rw [State.vf_setReg_vf, (s.drawSprite_flag _ _ _).2 collision]; rfl
  · intro clear
    rw [State.vf_setReg_vf, Bool.eq_false_iff.2 (mt (s.drawSprite_flag _ _ _).1 clear)]; rfl

/-- A draw that took no fault accessed no byte past the memory (R95). -/
theorem exec_drw_fits {x y n : Nibble} {s t : State} (h : exec (.drw x y n) s = .next t) (ht : t.flt = none) :
    n.toNat = 0 ∨ s.i.toNat + n.toNat ≤ 0x1000 := by
  rw [exec_drw, State.guardIndex_eq_if] at h
  split at h
  next fits => exact fits
  next => cases h; cases ht

/-- Where a sprite lands depends on `I` and the memory alone (R92). -/
theorem State.spriteHits_congr {s t : State} (hi : t.i = s.i) (hm : ∀ a, t.byteAt a = s.byteAt a) :
    t.SpriteHits = s.SpriteHits := by
  funext x0 y0 n p
  simp only [State.SpriteHits, State.SpriteBit, hi, hm]

/-- Settles O49: the first draw leaves `I`, the memory and the origin registers alone, so the second toggles the same pixels,
and collides with one that the first set. The flag's claim holds on every framebuffer. -/
theorem drawTwiceRestoresTheFramebuffer : Obligations.DrawTwiceRestoresTheFramebuffer := by
  intro x y n s t u hx hy _ h ht hu
  have fits := exec_drw_fits h ht
  obtain ⟨_, first, toggles, _, _, _, regs, frame⟩ := drawTogglesTheSpritePixels x y n s fits
  cases first.symm.trans h
  have index : t.i = s.i := frame .index (by simp)
  have memory : ∀ a, t.byteAt a = s.byteAt a := frame .memory (by simp)
  obtain ⟨_, second, toggles', collides, clear, _⟩ := drawTogglesTheSpritePixels x y n t (by rwa [index])
  cases second.symm.trans hu
  rw [State.spriteHits_congr index memory, regs x (by simpa using hx), regs y (by simpa using hy)]
    at toggles' collides clear
  refine ⟨Vector.ext fun p hp => ?_, fun _ => ⟨fun one => ?_, ?_⟩⟩
  · have ⟨hit, miss⟩ := toggles ⟨p, hp⟩
    have ⟨hit', miss'⟩ := toggles' ⟨p, hp⟩
    by_cases lands : s.SpriteHits ((s.reg x).toNat % 64) ((s.reg y).toNat % 32) n.toNat p
    · exact (hit' lands).trans ((congrArg (· ^^^ 0xFF#8) (hit lands)).trans (xor_cancel_right _ _))
    · exact (miss' lands).trans (miss lands)
  · obtain ⟨p, lands, full⟩ := by_contra fun noHit => absurd (one.symm.trans (clear noHit)) (by decide)
    refine ⟨p, ?_, full⟩
    rw [← xor_cancel_right (s.pixel p) 0xFF#8, ← (toggles p).1 lands, full]; rfl
  · rintro ⟨p, blank, full⟩
    refine collides ⟨p, by_contra fun misses => ?_, full⟩
    exact absurd (full.symm.trans (((toggles p).2 misses).trans blank)) (by decide)

end Sys2Proof.Machine
